-- ==== Sys2Proof/Word.lean ====
section
/-! DEFINITION. The widths of the block: a byte of a port, a 16-bit quantity (a channel value or the CRC accumulator) and
a 32-bit quantity (a sequence id or a counter). Bit 0 is the least significant (00_scope.md R2). -/

namespace Sys2Proof

/-- One byte of a port, an operand of 8 bits. -/
abbrev Byte := BitVec 8

/-- A 16-bit quantity: a channel value, the CRC accumulator (00_scope.md R5: CHANNEL_VALUE_WIDTH, CRC_WIDTH). -/
abbrev Half := BitVec 16

/-- A 32-bit quantity: a sequence id, a counter (00_scope.md R5: SEQ_WIDTH, COUNTER_WIDTH). -/
abbrev Word := BitVec 32

end Sys2Proof
end

