-- ==== Sys2Proof/Syntax.lean ====
section
/-! DEFINITION. The commands of the block as data: one constructor per row of spec/opcode_table.json, with the operands
of its format (30_encoding.md R62). The length operand L of FBUF and the count N of FFRM are the lengths of the lists. -/

namespace Sys2Proof

/-- Four channel values in channel order (00_scope.md §6 "ChannelFrame"; 10_state.md R16): operand of two commands,
payload of an envelope, and the shape of CUR_VALUES. -/
structure ChannelFrame where
  /-- Channel 0. -/
  v0 : Half
  /-- Channel 1. -/
  v1 : Half
  /-- Channel 2. -/
  v2 : Half
  /-- Channel 3. -/
  v3 : Half
  deriving DecidableEq, Repr

/-- The command set (30_encoding.md R65). A command is the complete record of its fields (R66). -/
inductive Instr where
  /-- CRC_RESET, 0x10, format F0 (40_crc.md R102). -/
  | crcReset
  /-- CRC_UPDATE, 0x11, format F1: `b` is the data byte (40_crc.md R103). -/
  | crcUpdate (b : Byte)
  /-- CRC_READ, 0x12, format F0 (40_crc.md R104). -/
  | crcRead
  /-- ENV_ENCODE, 0x20, format FENV (41_envelope.md R125). -/
  | envEncode (seq : Word) (frame : ChannelFrame)
  /-- ENV_ENCODE_NEXT, 0x21, format FV4 (41_envelope.md R126). -/
  | envEncodeNext (frame : ChannelFrame)
  /-- ENV_DECODE, 0x22, format FBUF (41_envelope.md R129). -/
  | envDecode (buf : List Byte)
  /-- SCALE, 0x30, format F2 (42_frame.md R151). -/
  | scale (raw : Half)
  /-- FRAME_ENCODE, 0x31, format FFRM: status byte and raw values (42_frame.md R154). -/
  | frameEncode (st : Byte) (vals : List Half)
  /-- FRAME_FROM_STATUS, 0x32, format F0 (42_frame.md R156). -/
  | frameFromStatus
  /-- PROCESS, 0x40, format FBUF (43_link_status.md R182). -/
  | process (buf : List Byte)
  /-- RADIO_IRQ, 0x41, format F1: the spawn-outcome flag (43_link_status.md R184). -/
  | radioIrq (flag : Byte)
  /-- SET_INIT_STATE, 0x42, format F1 (43_link_status.md R186). -/
  | setInitState (value : Byte)
  /-- REG_READ, 0x50, format F1: the register index (44_register_access.md R210). -/
  | regRead (index : Byte)
  deriving DecidableEq, Repr

end Sys2Proof
end

