-- ==== Sys2Proof/WellFormed.lean ====
section
/-! DEFINITION. Which terms of `Instr` a command on the port can be. Operand legality (30_encoding.md R63) is not asked
here: a command with an illegal operand is a command, and it responds ILLEGAL_OPERAND. -/

namespace Sys2Proof

/-- L of FBUF and N of FFRM are one byte, 0 to 255 (30_encoding.md R61, R62); every other field accepts every value of
its width (R63). -/
def Instr.wellFormed : Instr → Bool
  | .crcReset => true
  | .crcUpdate _ => true
  | .crcRead => true
  | .envEncode _ _ => true
  | .envEncodeNext _ => true
  | .envDecode buf => decide (buf.length < 256)
  | .scale _ => true
  | .frameEncode _ vals => decide (vals.length < 256)
  | .frameFromStatus => true
  | .process buf => decide (buf.length < 256)
  | .radioIrq _ => true
  | .setInitState _ => true
  | .regRead _ => true

end Sys2Proof
end

