-- ==== Sys2Proof/Decode.lean ====
section
/-! DEFINITION. The byte-stream decoder of the command port and its encoder, from the format tables of 30_encoding.md
R62 and the opcode map of R65, and the byte-order helpers they use. -/

namespace Sys2Proof

/-! ### Byte order (00_scope.md R3, 20_memory.md R42 to R44) -/

/-- `be16(v) = [v[15:8], v[7:0]]` (R3). -/
def be16 (v : Half) : List Byte := [v.extractLsb' 8 8, v.extractLsb' 0 8]

/-- `be32(v)`: the four bytes of v, most significant first (R3). -/
def be32 (v : Word) : List Byte :=
  [v.extractLsb' 24 8, v.extractLsb' 16 8, v.extractLsb' 8 8, v.extractLsb' 0 8]

/-- `le16(v) = [v[7:0], v[15:8]]` (R3). -/
def le16 (v : Half) : List Byte := [v.extractLsb' 0 8, v.extractLsb' 8 8]

/-- `le32(v)`: the four bytes of v, least significant first (R3). -/
def le32 (v : Word) : List Byte :=
  [v.extractLsb' 0 8, v.extractLsb' 8 8, v.extractLsb' 16 8, v.extractLsb' 24 8]

/-- The 16-bit field whose more significant byte is `hi` (30_encoding.md R62: `cmd[k]*2^8 + cmd[k+1]`). -/
def half (hi lo : Byte) : Half := hi ++ lo

/-- The 32-bit field of four bytes, the first the most significant (30_encoding.md R62). -/
def word (b3 b2 b1 b0 : Byte) : Word := b3 ++ b2 ++ b1 ++ b0

/-- The 16-bit fields of a byte sequence, two bytes each, big-endian: `val[i]` of format FFRM (R62). -/
def halves : List Byte → List Half
  | hi :: lo :: rest => half hi lo :: halves rest
  | _ => []

/-! ### The decoder -/

/-- What the bytes on the command port hold. -/
inductive Decoded where
  /-- No complete command yet: the bytes are a proper prefix of a command, or there are none (R66). -/
  | incomplete
  /-- An unassigned opcode byte, itself a command of one byte (R61, R65; 60_exceptions.md R235), and the bytes after it. -/
  | illegalCommand (opcode : Byte) (rest : List Byte)
  /-- A complete command and the bytes after it. -/
  | command (i : Instr) (rest : List Byte)
  deriving DecidableEq, Repr

/-- Format F0: the opcode alone (R62). -/
def formatF0 (i : Instr) (rest : List Byte) : Decoded := .command i rest

/-- Format F1: one operand byte (R62). -/
def formatF1 (mk : Byte → Instr) : List Byte → Decoded
  | b :: rest => .command (mk b) rest
  | [] => .incomplete

/-- Format F2: one 16-bit operand (R62). -/
def formatF2 (mk : Half → Instr) : List Byte → Decoded
  | h :: l :: rest => .command (mk (half h l)) rest
  | _ => .incomplete

/-- Format FV4: four 16-bit operands (R62). -/
def formatFV4 (mk : ChannelFrame → Instr) : List Byte → Decoded
  | h0 :: l0 :: h1 :: l1 :: h2 :: l2 :: h3 :: l3 :: rest =>
      .command (mk ⟨half h0 l0, half h1 l1, half h2 l2, half h3 l3⟩) rest
  | _ => .incomplete

/-- Format FENV: a 32-bit sequence id, then the operands of FV4 (R62). -/
def formatFENV (mk : Word → ChannelFrame → Instr) : List Byte → Decoded
  | s3 :: s2 :: s1 :: s0 :: rest => formatFV4 (mk (word s3 s2 s1 s0)) rest
  | _ => .incomplete

/-- Format FBUF: the length L, then L bytes in wire order (R62). -/
def formatFBUF (mk : List Byte → Instr) : List Byte → Decoded
  | len :: rest =>
      if rest.length < len.toNat then .incomplete
      else .command (mk (rest.take len.toNat)) (rest.drop len.toNat)
  | [] => .incomplete

/-- Format FFRM: the status byte, the count N, then N 16-bit values (R62). -/
def formatFFRM (mk : Byte → List Half → Instr) : List Byte → Decoded
  | st :: n :: rest =>
      if rest.length < 2 * n.toNat then .incomplete
      else .command (mk st (halves (rest.take (2 * n.toNat)))) (rest.drop (2 * n.toNat))
  | _ => .incomplete

/-- The decoder of the command port: the first byte selects the command and its format (R60, R65), the format how many
bytes follow (R61). Total: bytes that are no complete command are `incomplete`, an unassigned opcode byte is
`illegalCommand`. -/
def decode : List Byte → Decoded
  | [] => .incomplete
  | opcode :: rest =>
    match opcode.toNat with
    | 0x10 => formatF0 .crcReset rest
    | 0x11 => formatF1 .crcUpdate rest
    | 0x12 => formatF0 .crcRead rest
    | 0x20 => formatFENV .envEncode rest
    | 0x21 => formatFV4 .envEncodeNext rest
    | 0x22 => formatFBUF .envDecode rest
    | 0x30 => formatF2 .scale rest
    | 0x31 => formatFFRM .frameEncode rest
    | 0x32 => formatF0 .frameFromStatus rest
    | 0x40 => formatFBUF .process rest
    | 0x41 => formatF1 .radioIrq rest
    | 0x42 => formatF1 .setInitState rest
    | 0x50 => formatF1 .regRead rest
    | _ => .illegalCommand opcode rest

/-! ### The length of a command, from its first bytes alone (R61) -/

/-- The seven formats of R62. -/
inductive Format where
  | f0 | f1 | f2 | fv4 | fenv | fbuf | ffrm
  deriving DecidableEq, Repr

/-- The format column of the opcode map (R65); `none` for an unassigned byte. -/
def formatOf (opcode : Byte) : Option Format :=
  match opcode.toNat with
  | 0x10 | 0x12 | 0x32 => some .f0
  | 0x11 | 0x41 | 0x42 | 0x50 => some .f1
  | 0x30 => some .f2
  | 0x21 => some .fv4
  | 0x20 => some .fenv
  | 0x22 | 0x40 => some .fbuf
  | 0x31 => some .ffrm
  | _ => none

/-- R61: how many bytes the command that starts here has; `none` while the byte that says so has not arrived. -/
def commandLength : List Byte → Option Nat
  | [] => none
  | opcode :: rest =>
    match formatOf opcode with
    | none => some 1
    | some .f0 => some 1
    | some .f1 => some 2
    | some .f2 => some 3
    | some .fv4 => some 9
    | some .fenv => some 13
    | some .fbuf => rest[0]?.map fun len => 2 + len.toNat
    | some .ffrm => rest[1]?.map fun n => 3 + 2 * n.toNat

/-! ### The encoder -/

/-- The four operands of format FV4 as bytes (R62, 20_memory.md R44). -/
def ChannelFrame.toBytes (f : ChannelFrame) : List Byte :=
  be16 f.v0 ++ be16 f.v1 ++ be16 f.v2 ++ be16 f.v3

/-- The length operand of format FBUF, or the count of format FFRM (R62): the length's low byte, which is the length
itself in a well-formed command. -/
def lengthByte (n : Nat) : Byte := BitVec.ofNat 8 n

/-- The bytes of a command, opcode first (R60, R62, R65). -/
def encode : Instr → List Byte
  | .crcReset => [0x10#8]
  | .crcUpdate b => [0x11#8, b]
  | .crcRead => [0x12#8]
  | .envEncode seq frame => 0x20#8 :: (be32 seq ++ frame.toBytes)
  | .envEncodeNext frame => 0x21#8 :: frame.toBytes
  | .envDecode buf => 0x22#8 :: lengthByte buf.length :: buf
  | .scale raw => 0x30#8 :: be16 raw
  | .frameEncode st vals => 0x31#8 :: st :: lengthByte vals.length :: vals.flatMap be16
  | .frameFromStatus => [0x32#8]
  | .process buf => 0x40#8 :: lengthByte buf.length :: buf
  | .radioIrq flag => [0x41#8, flag]
  | .setInitState value => [0x42#8, value]
  | .regRead index => [0x50#8, index]

/-! ### The opcode table's numbering of a command's bits -/

/-- Byte `k` of a command whose first `nbits` bits are `w`, numbered as spec/opcode_table.json numbers them (bit 0 the
least significant of the first byte); every bit above `nbits` is 0. -/
def tableByte (nbits w k : Nat) : Byte := BitVec.ofNat 8 (w % 2 ^ nbits / 256 ^ k)

/-- The bytes of that command: as many as its first bytes say (R61), one for an unassigned opcode. -/
def tableBytes (nbits w : Nat) : List Byte :=
  let b := tableByte nbits w
  (List.range ((commandLength [b 0, b 1, b 2]).getD 1)).map b

/-- The command the decoder reads from bits numbered as spec/opcode_table.json numbers them. -/
def decodeTableWord (nbits w : Nat) : Option Instr :=
  match decode (tableBytes nbits w) with
  | .command i _ => some i
  | .incomplete => none
  | .illegalCommand _ _ => none

end Sys2Proof
end

