-- ==== Sys2Proof/Config.lean ====
section
/-! DEFINITION. The implementation parameters of 00_scope.md R5: its fixed rows as constants, its `parameter` rows as a
record that State carries, so that a claim about every state is a claim about every value of them. The spec leaves no
result of a command open, so no constant here is opaque. -/

namespace Sys2Proof

namespace Config

/-- CRC_POLY (R5). -/
def crcPoly : Half := 0x1021#16

/-- CRC_INIT (R5). -/
def crcInit : Half := 0x0000#16

/-- ENV_BUF_MAX, in bytes (R5). -/
def envBufMax : Nat := 32

/-- ENV_DISC_CHANNEL_VALUES (R5, 41_envelope.md R122). -/
def envDiscChannelValues : Byte := 0x00#8

/-- FRAME_MAX_CHANNELS (R5). -/
def frameMaxChannels : Nat := 32

/-- STATUS_LIVE (R5). -/
def statusLive : Byte := 0x01#8

/-- STATUS_FAILSAFE (R5). -/
def statusFailSafe : Byte := 0x81#8

/-- LOW (R5): the nominal low end of the flight controller's range. -/
def low : Nat := 0x2260

/-- HIGH (R5): the nominal high end of the flight controller's range. -/
def high : Nat := 0x3B60

/-- NEUTRAL (R5): the middle of the flight controller's range. -/
def neutral : Nat := 0x2EE0

/-- EXTENDED_LOW (R5): read by no operation (42_frame.md R159). -/
def extendedLow : Nat := 0x1C20

/-- EXTENDED_HIGH (R5): read by no operation (42_frame.md R159). -/
def extendedHigh : Nat := 0x41A0

end Config

/-- The `parameter` rows of R5, fixed when the block is built and set by no command (70_reset_and_hazards.md R262).
Which values are admissible is `Params.admissible` (42_frame.md R150). -/
structure Params where
  /-- SYNC_BYTE. -/
  syncByte : Byte
  /-- SCALE_DIV. -/
  scaleDiv : Nat
  /-- SCALE_OFFSET. -/
  scaleOffset : Nat
  deriving DecidableEq, Repr

/-- The defaults of R5: SYNC_BYTE = 0xA8, SCALE_DIV = 10, SCALE_OFFSET = 0x2214. -/
def Params.default : Params := { syncByte := 0xA8#8, scaleDiv := 10, scaleOffset := 0x2214 }

/-- The other instantiation 42_frame.md R150 admits: SCALE_OFFSET = LOW. -/
def Params.offsetAtLow : Params := { Params.default with scaleOffset := Config.low }

end Sys2Proof
end

