-- ==== Sys2Proof/Machine/State.lean ====
section
/-! DEFINITION. The state of the block as plain data: the registers of 10_state.md R11, which are all its architectural
state (R10), and the model's own fields: the two ports and the build-time parameters. -/

namespace Sys2Proof.Machine

/-- The registers of 10_state.md R11, every one and nothing else (R10). -/
structure Registers where
  /-- CRC_ACC, index 0x00 (R14). -/
  crcAcc : Half
  /-- TX_SEQ, index 0x01 (R17). -/
  txSeq : Word
  /-- LAST_SEQ, index 0x02 (R15). -/
  lastSeq : Word
  /-- MISSED_MSG, index 0x03 (R15). -/
  missedMsg : Word
  /-- IRQ_COUNT, index 0x04 (R15). -/
  irqCount : Word
  /-- MISSED_IRQ, index 0x05 (R15). -/
  missedIrq : Word
  /-- INIT_STATE, index 0x06 (R18). -/
  initState : Byte
  /-- CUR_VALUES[0..3], indices 0x08 to 0x0B (R16). -/
  curValues : ChannelFrame
  deriving DecidableEq, Repr

/-- Why an envelope does not decode (41_envelope.md R128). -/
inductive DecodeReason where
  /-- Fewer than 13 bytes. -/
  | truncated
  /-- Byte 4 names no variant. -/
  | unknownDiscriminant
  /-- More than 32 bytes. -/
  | oversize
  deriving DecidableEq, Repr

/-- The errors a command can report (60_exceptions.md R232). -/
inductive CommandError where
  /-- ENCODE_OVERFLOW: an envelope longer than 32 bytes (41_envelope.md R124: never reached). -/
  | encodeOverflow
  /-- DECODE_ERROR (41_envelope.md R128). -/
  | decodeError (reason : DecodeReason)
  /-- FRAME_TOO_LARGE: more than 32 channels (42_frame.md R153). -/
  | frameTooLarge
  /-- ILLEGAL_COMMAND: an unassigned opcode byte (60_exceptions.md R235). -/
  | illegalCommand
  /-- ILLEGAL_OPERAND: an operand outside its legal set (60_exceptions.md R236). -/
  | illegalOperand
  deriving DecidableEq, Repr

/-- What a command answers (30_encoding.md R64): OK with its payload, or an error, whose payload the error fixes
(60_exceptions.md R231). Its bytes are `Response.bytes`. -/
inductive Response where
  | ok (payload : List Byte)
  | error (e : CommandError)
  deriving DecidableEq, Repr

/-- The state. `regs` is the spec's; `cmdPort`, `rspPort` and `params` are the model's own fields (NOTES.md,
assumptions 1, 2 and 4). -/
structure State where
  /-- The registers (10_state.md R11). -/
  regs : Registers
  /-- The bytes on the command port that no command has taken yet, first on the wire first (30_encoding.md R60, R66). -/
  cmdPort : List Byte
  /-- The responses returned and not yet collected by the host, oldest first (30_encoding.md R64). -/
  rspPort : List Response
  /-- The build-time parameters (00_scope.md R5). -/
  params : Params
  deriving DecidableEq, Repr

/-- The registers after reset, all zero (10_state.md R11, 70_reset_and_hazards.md R260). -/
def Registers.reset : Registers :=
  { crcAcc := 0x0000#16, txSeq := 0x00000000#32, lastSeq := 0x00000000#32, missedMsg := 0x00000000#32,
    irqCount := 0x00000000#32, missedIrq := 0x00000000#32, initState := 0x00#8,
    curValues := ⟨0x0000#16, 0x0000#16, 0x0000#16, 0x0000#16⟩ }

/-- The block right after reset (70_reset_and_hazards.md R260): every register at its reset value, nothing on either
port, the parameters at their defaults (00_scope.md R5). -/
def State.reset : State :=
  { regs := Registers.reset, cmdPort := [], rspPort := [], params := Params.default }

/-- Where the model stops with a fault. -/
inductive Fault where
  /-- A result that does not fit the width it is written to: 00_scope.md R4's "specification error (fault)". Raised by
  SCALE, FRAME_ENCODE, FRAME_FROM_STATUS and the two envelope encoders through `narrow`; no command reaches it, because
  the parameters are checked first. Safe: the model stops and claims nothing. -/
  | resultOutOfRange
  deriving DecidableEq, Repr

/-- Where the model gives no meaning. -/
inductive Refusal where
  /-- A command that has no meaning yet, by its mnemonic. No arm of `exec` answers it. Safe. -/
  | notModelled (mnemonic : String)
  /-- SCALE, FRAME_ENCODE or FRAME_FROM_STATUS on a block built with parameters that 42_frame.md R150 tells a model to
  refuse (SCALE_DIV = 0, or a scaled value over 0xFFFF). Safe: the model stops and claims nothing. -/
  | inadmissibleParameters
  deriving DecidableEq, Repr

/-- What running a command on the block ends in. -/
abbrev Result := Host.Outcome State Fault Refusal

end Sys2Proof.Machine
end

