-- ==== Sys2Proof/Machine/Ops.lean ====
section
/-! DEFINITION. The named operations over the registers and the response port that the commands share. The block has no
addressable memory (20_memory.md R40), so there is none over memory. -/

namespace Sys2Proof.Machine

/-! ### Register writes: `REG <- v` (00_scope.md R3) -/

/-- `CRC_ACC <- v`. -/
def State.setCrcAcc (v : Half) (s : State) : State := { s with regs := { s.regs with crcAcc := v } }

/-- `TX_SEQ <- v`. -/
def State.setTxSeq (v : Word) (s : State) : State := { s with regs := { s.regs with txSeq := v } }

/-- `LAST_SEQ <- v`. -/
def State.setLastSeq (v : Word) (s : State) : State := { s with regs := { s.regs with lastSeq := v } }

/-- `MISSED_MSG <- v`. -/
def State.setMissedMsg (v : Word) (s : State) : State := { s with regs := { s.regs with missedMsg := v } }

/-- `IRQ_COUNT <- v`. -/
def State.setIrqCount (v : Word) (s : State) : State := { s with regs := { s.regs with irqCount := v } }

/-- `MISSED_IRQ <- v`. -/
def State.setMissedIrq (v : Word) (s : State) : State := { s with regs := { s.regs with missedIrq := v } }

/-- `INIT_STATE <- v`. -/
def State.setInitState (v : Byte) (s : State) : State := { s with regs := { s.regs with initState := v } }

/-- `CUR_VALUES <- [v0, v1, v2, v3]`, all four together (10_state.md R16). -/
def State.setCurValues (v : ChannelFrame) (s : State) : State := { s with regs := { s.regs with curValues := v } }

/-- The command port holds these bytes. -/
def State.setCmdPort (bytes : List Byte) (s : State) : State := { s with cmdPort := bytes }

/-! ### Ending a command: exactly one response (30_encoding.md R64) -/

/-- Put one response on the response port. -/
def State.respond (r : Response) (s : State) : State := { s with rspPort := s.rspPort ++ [r] }

/-- `respond(OK, payload)` (00_scope.md R3). -/
def respondOk (payload : List Byte) (s : State) : Result := .next (s.respond (.ok payload))

/-- `raise E(info)` (00_scope.md R3, 60_exceptions.md R231): the error's response, and no register written. `s` is the
state before the command wrote anything. This is all that taking an exception is on this hardware: nothing is saved, no
mode changes, no handler runs, and there is no return (R238). -/
def raise (e : CommandError) (s : State) : Result := .next (s.respond (.error e))

/-- An unassigned opcode byte (60_exceptions.md R235): `raise ILLEGAL_COMMAND()`. -/
def illegalCommand (s : State) : Result := raise .illegalCommand s

/-- No complete command stands on the port: nothing has started, nothing changes, nothing is returned (30_encoding.md
R66, 70_reset_and_hazards.md R273). -/
def waitForBytes (s : State) : Result := .next s

/-! ### Results that must fit (00_scope.md R4) -/

/-- An exact result written to a width of `w` bits, `none` where it does not fit: R4's specification error. -/
def narrow (w n : Nat) : Option (BitVec w) := if n < 2 ^ w then some (BitVec.ofNat w n) else none

/-- `[len(bytes)] ++ bytes` (30_encoding.md R67). -/
def lengthPrefixed (bytes : List Byte) : Option (List Byte) := (narrow 8 bytes.length).map (· :: bytes)

/-- Respond OK with a payload computed from exact results, or fault where one of them did not fit (R4). -/
def respondChecked (payload : Option (List Byte)) (s : State) : Result :=
  match payload with
  | some bytes => respondOk bytes s
  | none => .fault .resultOutOfRange

end Sys2Proof.Machine
end

