-- ==== Sys2Proof/Machine/Crc.lean ====
section
/-! DEFINITION. The CRC engine (40_crc.md): CRC_RESET, CRC_UPDATE, CRC_READ, and the step the frame encoder shares. -/

namespace Sys2Proof.Machine

/-- One round of `crc_step` (R100): the high bit is tested before the shift. -/
def crcRound (a : Half) : Half :=
  if a.getLsbD 15 then (a <<< 1) ^^^ Config.crcPoly else a <<< 1

/-- `n` rounds. -/
def crcRounds : Nat → Half → Half
  | 0, a => a
  | n + 1, a => crcRounds n (crcRound a)

/-- `crc_step(acc, b)` (R100): the byte into the high byte, then eight rounds. -/
def crcStep (acc : Half) (b : Byte) : Half := crcRounds 8 (acc ^^^ (b.setWidth 16 <<< 8))

/-- `crc16(s) = fold(crc_step, 0x0000, s)` (R101). -/
def crc16 (bytes : List Byte) : Half := bytes.foldl crcStep Config.crcInit

/-- `CRC_ACC <- crc_step(CRC_ACC, b)`. -/
def State.feedCrc (s : State) (b : Byte) : State := s.setCrcAcc (crcStep s.regs.crcAcc b)

/-- CRC_RESET (R102). -/
def execCrcReset (s : State) : Result := respondOk [] (s.setCrcAcc Config.crcInit)

/-- CRC_UPDATE (R103). -/
def execCrcUpdate (b : Byte) (s : State) : Result := respondOk [] (s.feedCrc b)

/-- CRC_READ (R104). -/
def execCrcRead (s : State) : Result := respondOk (be16 s.regs.crcAcc) s

end Sys2Proof.Machine
end

