-- ==== Sys2Proof/Machine/Envelope.lean ====
section
/-! DEFINITION. The wire envelope codec (41_envelope.md): ENV_ENCODE, ENV_ENCODE_NEXT, ENV_DECODE. -/

namespace Sys2Proof.Machine

/-- The tagged body of an envelope: one variant (R120). -/
inductive Body where
  | channelValues (frame : ChannelFrame)
  deriving DecidableEq, Repr

/-- An envelope (R120). -/
structure Envelope where
  seq : Word
  body : Body
  deriving DecidableEq, Repr

/-- The discriminant byte that names a body's variant (R122). -/
def Body.discriminant : Body → Byte
  | .channelValues _ => Config.envDiscChannelValues

/-- A body's payload on the wire: each value little-endian, in channel order (R121). -/
def Body.payload : Body → List Byte
  | .channelValues f => le16 f.v0 ++ le16 f.v1 ++ le16 f.v2 ++ le16 f.v3

/-- `env_encode` (R121). -/
def envelopeEncode (e : Envelope) : List Byte := le32 e.seq ++ [e.body.discriminant] ++ e.body.payload

/-- What `env_decode` returns (R127). -/
inductive DecodeResult where
  | envelope (e : Envelope)
  | fail (reason : DecodeReason)
  deriving DecidableEq, Repr

/-- `env_decode` (R127): the length over 32 first, then under 13, then the discriminant; bytes after the 13th ignored.
A sequence that has no 13th byte has fewer than 13. -/
def envelopeDecode (buf : List Byte) : DecodeResult :=
  if Config.envBufMax < buf.length then .fail .oversize
  else
    match buf with
    | s0 :: s1 :: s2 :: s3 :: disc :: a0 :: a1 :: b0 :: b1 :: c0 :: c1 :: d0 :: d1 :: _ =>
        if disc ≠ Config.envDiscChannelValues then .fail .unknownDiscriminant
        else .envelope ⟨word s3 s2 s1 s0, .channelValues ⟨half a1 a0, half b1 b0, half c1 c0, half d1 d0⟩⟩
    | _ => .fail .truncated

/-- The response of the two encoders, `written` being the state with the command's register writes: ENCODE_OVERFLOW and
none of them for an envelope over 32 bytes (R124: never), else OK and `[len(env)] ++ env`. -/
def respondEnvelope (env : List Byte) (written s : State) : Result :=
  if Config.envBufMax < env.length then raise .encodeOverflow s
  else respondChecked (lengthPrefixed env) written

/-- ENV_ENCODE (R125). -/
def execEnvEncode (seq : Word) (frame : ChannelFrame) (s : State) : Result :=
  respondEnvelope (envelopeEncode ⟨seq, .channelValues frame⟩) s s

/-- ENV_ENCODE_NEXT (R126): the envelope carries TX_SEQ as it was, then TX_SEQ advances modulo 2^32. -/
def execEnvEncodeNext (frame : ChannelFrame) (s : State) : Result :=
  respondEnvelope (envelopeEncode ⟨s.regs.txSeq, .channelValues frame⟩) (s.setTxSeq (s.regs.txSeq + 1)) s

/-- The payload of ENV_DECODE's OK response (R129, 30_encoding.md R67). -/
def decodedPayload (e : Envelope) : List Byte :=
  match e.body with
  | .channelValues f =>
      be32 e.seq ++ [e.body.discriminant] ++ be16 f.v0 ++ be16 f.v1 ++ be16 f.v2 ++ be16 f.v3

/-- ENV_DECODE (R129). -/
def execEnvDecode (buf : List Byte) (s : State) : Result :=
  match envelopeDecode buf with
  | .fail reason => raise (.decodeError reason) s
  | .envelope e => respondOk (decodedPayload e) s

end Sys2Proof.Machine
end

