-- ==== Sys2Proof/Machine/Operands.lean ====
section
/-! DEFINITION. Which operand values are legal (30_encoding.md R63), the register index map (10_state.md R11), and which
parameter values a model takes (42_frame.md R150). -/

namespace Sys2Proof.Machine

/-- The legal `st` values of FRAME_ENCODE, 0x01 and 0x81 (R63). -/
def legalFrameStatus (st : Byte) : Bool := st == Config.statusLive || st == Config.statusFailSafe

/-- RADIO_IRQ flag SPAWNED (43_link_status.md R184). -/
def flagSpawned : Byte := 0x01#8

/-- RADIO_IRQ flag QUEUE_FULL (43_link_status.md R184). -/
def flagQueueFull : Byte := 0x00#8

/-- The legal RADIO_IRQ flags, 0x00 and 0x01 (R63). -/
def legalIrqFlag (flag : Byte) : Bool := flag == flagQueueFull || flag == flagSpawned

/-- The registers by name (10_state.md R11). -/
inductive RegName where
  | crcAcc | txSeq | lastSeq | missedMsg | irqCount | missedIrq | initState
  | curValue0 | curValue1 | curValue2 | curValue3
  deriving DecidableEq, Repr

/-- The index column of 10_state.md R11. -/
def RegName.index : RegName → Byte
  | .crcAcc => 0x00#8
  | .txSeq => 0x01#8
  | .lastSeq => 0x02#8
  | .missedMsg => 0x03#8
  | .irqCount => 0x04#8
  | .missedIrq => 0x05#8
  | .initState => 0x06#8
  | .curValue0 => 0x08#8
  | .curValue1 => 0x09#8
  | .curValue2 => 0x0A#8
  | .curValue3 => 0x0B#8

/-- The register with an index, `none` for a reserved one (44_register_access.md R211). -/
def regOfIndex (index : Byte) : Option RegName :=
  match index.toNat with
  | 0x00 => some .crcAcc
  | 0x01 => some .txSeq
  | 0x02 => some .lastSeq
  | 0x03 => some .missedMsg
  | 0x04 => some .irqCount
  | 0x05 => some .missedIrq
  | 0x06 => some .initState
  | 0x08 => some .curValue0
  | 0x09 => some .curValue1
  | 0x0A => some .curValue2
  | 0x0B => some .curValue3
  | _ => none

/-- `zext_32(register)` (44_register_access.md R210, 20_memory.md R45). -/
def Registers.read (r : Registers) : RegName → Word
  | .crcAcc => r.crcAcc.setWidth 32
  | .txSeq => r.txSeq
  | .lastSeq => r.lastSeq
  | .missedMsg => r.missedMsg
  | .irqCount => r.irqCount
  | .missedIrq => r.missedIrq
  | .initState => r.initState.setWidth 32
  | .curValue0 => r.curValues.v0.setWidth 32
  | .curValue1 => r.curValues.v1.setWidth 32
  | .curValue2 => r.curValues.v2.setWidth 32
  | .curValue3 => r.curValues.v3.setWidth 32

/-- A model refuses SCALE_DIV = 0 and values for which `65535 // SCALE_DIV + SCALE_OFFSET > 0xFFFF` (42_frame.md R150). -/
def admissible (p : Params) : Bool :=
  decide (0 < p.scaleDiv) && decide (65535 / p.scaleDiv + p.scaleOffset ≤ 0xFFFF)

/-- The channel values of a frame in channel order (10_state.md R16). -/
def channelList (f : ChannelFrame) : List Half := [f.v0, f.v1, f.v2, f.v3]

end Sys2Proof.Machine
end

