-- ==== Sys2Proof/Machine/Frame.lean ====
section
/-! DEFINITION. The output frame encoder (42_frame.md): SCALE, FRAME_ENCODE, FRAME_FROM_STATUS. -/

namespace Sys2Proof.Machine

/-- `scale(raw) = raw // SCALE_DIV + SCALE_OFFSET` (R150), exact, then written to 16 bits. -/
def scaled (p : Params) (raw : Half) : Option Half := narrow 16 (raw.toNat / p.scaleDiv + p.scaleOffset)

/-- `be16(scale(val[0])) ++ ... ++ be16(scale(val[N-1]))` (R152). -/
def scaledBytes (p : Params) : List Half → Option (List Byte)
  | [] => some []
  | raw :: rest => do
      let v ← scaled p raw
      let bytes ← scaledBytes p rest
      return be16 v ++ bytes

/-- `frame_body(st, val)` (R152): the sync byte, the status, the channel count, the scaled values. -/
def frameBody (p : Params) (st : Byte) (vals : List Half) : Option (List Byte) := do
  let n ← narrow 8 vals.length
  let bytes ← scaledBytes p vals
  return p.syncByte :: st :: n :: bytes

/-- R150: a model refuses inadmissible parameters; a command that scales runs only where they are admissible. -/
def withParams (s : State) (run : Result) : Result :=
  if admissible s.params then run else .refused .inadmissibleParameters

/-- Steps (1) to (7) of R154 over a body: reset the shared accumulator (40_crc.md R106), feed it every body byte, append
its two bytes without feeding them back (R155). -/
def emitFrame (body : List Byte) (s : State) : Result :=
  let fed := body.foldl State.feedCrc (s.setCrcAcc Config.crcInit)
  respondChecked (lengthPrefixed (body ++ be16 fed.regs.crcAcc)) fed

/-- FRAME_ENCODE's pseudocode (R154), which FRAME_FROM_STATUS executes too (R156): `st` is checked first, then N. -/
def buildFrame (st : Byte) (vals : List Half) (s : State) : Result :=
  if !legalFrameStatus st then raise .illegalOperand s
  else if Config.frameMaxChannels < vals.length then raise .frameTooLarge s
  else withParams s <|
    match frameBody s.params st vals with
    | some body => emitFrame body s
    | none => .fault .resultOutOfRange

/-- SCALE (R151). -/
def execScale (raw : Half) (s : State) : Result :=
  withParams s (respondChecked ((scaled s.params raw).map be16) s)

/-- FRAME_ENCODE (R154). -/
def execFrameEncode (st : Byte) (vals : List Half) (s : State) : Result := buildFrame st vals s

/-- FRAME_FROM_STATUS (R156): the Live frame of CUR_VALUES. -/
def execFrameFromStatus (s : State) : Result :=
  buildFrame Config.statusLive (channelList s.regs.curValues) s

end Sys2Proof.Machine
end

