-- ==== Sys2Proof/Machine/LinkStatus.lean ====
section
/-! DEFINITION. The link status unit (43_link_status.md): PROCESS, RADIO_IRQ, SET_INIT_STATE. -/

namespace Sys2Proof.Machine

/-- R181: MISSED_MSG grows by the ids skipped when `seq` is greater than LAST_SEQ; LAST_SEQ becomes `seq` always. Both
sides are unsigned (41_envelope.md R120), the sum is modulo 2^32. -/
def State.accountLoss (seq : Word) (s : State) : State :=
  let missed :=
    if s.regs.lastSeq < seq then s.regs.missedMsg + (seq - s.regs.lastSeq - 1) else s.regs.missedMsg
  (s.setMissedMsg missed).setLastSeq seq

/-- R180, R182: what a decoded envelope does to the link status. -/
def State.applyEnvelope (e : Envelope) (s : State) : State :=
  match e.body with
  | .channelValues frame => (s.accountLoss e.seq).setCurValues frame

/-- PROCESS (R182). -/
def execProcess (buf : List Byte) (s : State) : Result :=
  match envelopeDecode buf with
  | .fail reason => raise (.decodeError reason) s
  | .envelope e => respondOk [] (s.applyEnvelope e)

/-- R184, R185: every interrupt counts in IRQ_COUNT; one whose spawn found the queue full counts in MISSED_IRQ too. -/
def State.countIrq (flag : Byte) (s : State) : State :=
  let counted := s.setIrqCount (s.regs.irqCount + 1)
  if flag == flagQueueFull then counted.setMissedIrq (counted.regs.missedIrq + 1) else counted

/-- RADIO_IRQ (R184). -/
def execRadioIrq (flag : Byte) (s : State) : Result :=
  if !legalIrqFlag flag then raise .illegalOperand s
  else respondOk [] (s.countIrq flag)

/-- SET_INIT_STATE (R186). -/
def execSetInitState (value : Byte) (s : State) : Result := respondOk [] (s.setInitState value)

end Sys2Proof.Machine
end

