-- ==== Sys2Proof/Machine/RegisterAccess.lean ====
section
/-! DEFINITION. Register read-out (44_register_access.md): REG_READ. -/

namespace Sys2Proof.Machine

/-- REG_READ (R210): the register zero-extended to 32 bits, big-endian; a reserved index is an illegal operand (R211). -/
def execRegRead (index : Byte) (s : State) : Result :=
  match regOfIndex index with
  | none => raise .illegalOperand s
  | some r => respondOk (be32 (s.regs.read r)) s

end Sys2Proof.Machine
end

