-- ==== Sys2Proof/Machine/Dispatch.lean ====
section
/-! DEFINITION. One arm per command: its meaning. -/

namespace Sys2Proof.Machine

def exec (i : Instr) (s : State) : Host.Outcome State Fault Refusal :=
  match i with
  -- CRC engine
  | .crcReset => Sys2Proof.Machine.execCrcReset s
  | .crcUpdate b => Sys2Proof.Machine.execCrcUpdate b s
  | .crcRead => Sys2Proof.Machine.execCrcRead s
  -- envelope codec
  | .envEncode seq frame => Sys2Proof.Machine.execEnvEncode seq frame s
  | .envEncodeNext frame => Sys2Proof.Machine.execEnvEncodeNext frame s
  | .envDecode buf => Sys2Proof.Machine.execEnvDecode buf s
  -- frame encoder
  | .scale raw => Sys2Proof.Machine.execScale raw s
  | .frameEncode st vals => Sys2Proof.Machine.execFrameEncode st vals s
  | .frameFromStatus => Sys2Proof.Machine.execFrameFromStatus s
  -- link status
  | .process buf => Sys2Proof.Machine.execProcess buf s
  | .radioIrq flag => Sys2Proof.Machine.execRadioIrq flag s
  | .setInitState value => Sys2Proof.Machine.execSetInitState value s
  -- register access
  | .regRead index => Sys2Proof.Machine.execRegRead index s

end Sys2Proof.Machine
end

