-- ==== Sys2Proof/Machine/Step.lean ====
section
/-! DEFINITION. One step: the block takes the next complete command off the command port and executes it (00_scope.md
R1). -/

namespace Sys2Proof.Machine

/-- One step (30_encoding.md R66, 20_memory.md R47, R50). The command's bytes are consumed whole, also when it responds
with an error (60_exceptions.md R236); an unassigned byte is a command of one byte (R235); a partial command waits. -/
def step (s : State) : Host.Outcome State Fault Refusal :=
  match decode s.cmdPort with
  | .incomplete => waitForBytes s
  | .illegalCommand _ rest => illegalCommand (s.setCmdPort rest)
  | .command i rest => exec i (s.setCmdPort rest)

/-- `s` with the command of these bits (numbered as spec/opcode_table.json numbers them) at the head of the command
port, before any bytes that stand there already. -/
def State.withFetchWord (s : State) (nbits w : Nat) : State := s.setCmdPort (tableBytes nbits w ++ s.cmdPort)

end Sys2Proof.Machine
end

