-- ==== Sys2Proof/Machine/Assembler.lean ====
section
/-! DEFINITION. The assembler syntax of 30_encoding.md R68 and the pseudo-command CRC_BYTES of R69: one command a line,
read from a list of characters. Text that is no line of that syntax, or a number that does not fit its operand, gives
`none`. -/

namespace Sys2Proof.Machine.Asm

/-- CRC_BYTES (R69): one CRC_UPDATE for each byte, in order. -/
def crcBytes (bytes : List Byte) : List Instr := bytes.map Instr.crcUpdate

/-! ### Characters -/

/-- A blank between the parts of a line. -/
def isBlank (c : Char) : Bool := c == ' ' || c == '\t' || c == '\r'

/-- The text without the blanks around it. -/
def trim (cs : List Char) : List Char := ((cs.dropWhile isBlank).reverse.dropWhile isBlank).reverse

/-- The parts of the text between separators. -/
def splitOn (sep : Char) : List Char → List (List Char)
  | [] => [[]]
  | c :: cs =>
    match c == sep, splitOn sep cs with
    | true, parts => [] :: parts
    | false, part :: parts => (c :: part) :: parts
    | false, [] => [[c]]

/-- The operands of a line: its parts between commas that stand outside square brackets; `open_` counts open ones. -/
def splitOperands (open_ : Nat) : List Char → List (List Char)
  | [] => [[]]
  | c :: cs =>
    let after := if c == '[' then open_ + 1 else if c == ']' then open_ - 1 else open_
    match c == ',' && open_ == 0, splitOperands after cs with
    | true, parts => [] :: parts
    | false, part :: parts => (c :: part) :: parts
    | false, [] => [[c]]

/-- The text between a leading `[` and the last `]`, `none` where it is not in brackets. -/
def bracketed : List Char → Option (List Char)
  | '[' :: cs => if cs.getLast? == some ']' then some cs.dropLast else none
  | _ => none

/-! ### Numbers and operands (R68) -/

/-- A hexadecimal digit. -/
def hexDigit (c : Char) : Option Nat :=
  if '0' ≤ c ∧ c ≤ '9' then some (c.toNat - '0'.toNat)
  else if 'a' ≤ c ∧ c ≤ 'f' then some (c.toNat - 'a'.toNat + 10)
  else if 'A' ≤ c ∧ c ≤ 'F' then some (c.toNat - 'A'.toNat + 10)
  else none

/-- A number in the base, digit after digit. -/
def digits (base : Nat) (cs : List Char) : Option Nat :=
  if cs.isEmpty then none
  else cs.foldlM (fun n c => (hexDigit c).bind fun d => if d < base then some (n * base + d) else none) 0

/-- A number: decimal, or hexadecimal after `0x`. -/
def number : List Char → Option Nat
  | '0' :: 'x' :: cs => digits 16 cs
  | cs => digits 10 cs

/-- A number that fits `w` bits. -/
def operand (w : Nat) (cs : List Char) : Option (BitVec w) := (number cs).bind (narrow w)

/-- A byte of a byte sequence: two hexadecimal digits. -/
def hexByte : List Char → Option Byte
  | [a, b] => (digits 16 [a, b]).bind (narrow 8)
  | _ => none

/-- A byte sequence `[b0 b1 ...]`. -/
def byteSequence (cs : List Char) : Option (List Byte) :=
  (bracketed cs).bind fun inner =>
    ((splitOn ' ' inner).map trim |>.filter fun part => !part.isEmpty).mapM hexByte

/-- A list of values `[v0, v1, ...]`. -/
def valueList (cs : List Char) : Option (List Half) :=
  (bracketed cs).bind fun inner =>
    if (trim inner).isEmpty then some [] else (splitOn ',' inner).mapM fun part => operand 16 (trim part)

/-- FRAME_ENCODE's status: LIVE, FAILSAFE or a number. -/
def frameStatus (cs : List Char) : Option Byte :=
  if cs = "LIVE".toList then some Config.statusLive
  else if cs = "FAILSAFE".toList then some Config.statusFailSafe
  else operand 8 cs

/-- RADIO_IRQ's flag: SPAWNED, QUEUE_FULL or a number. -/
def irqFlag (cs : List Char) : Option Byte :=
  if cs = "SPAWNED".toList then some flagSpawned
  else if cs = "QUEUE_FULL".toList then some flagQueueFull
  else operand 8 cs

/-- The register names of 10_state.md R11. -/
def regNames : List (String × RegName) :=
  [("CRC_ACC", .crcAcc), ("TX_SEQ", .txSeq), ("LAST_SEQ", .lastSeq), ("MISSED_MSG", .missedMsg),
   ("IRQ_COUNT", .irqCount), ("MISSED_IRQ", .missedIrq), ("INIT_STATE", .initState), ("CUR_VALUES[0]", .curValue0),
   ("CUR_VALUES[1]", .curValue1), ("CUR_VALUES[2]", .curValue2), ("CUR_VALUES[3]", .curValue3)]

/-- REG_READ's operand: a register name or an index. -/
def regIndex (cs : List Char) : Option Byte :=
  match regNames.find? fun row => row.1.toList = cs with
  | some row => some row.2.index
  | none => operand 8 cs

/-- Four values, channel 0 first. -/
def channelFrame : List (List Char) → Option ChannelFrame
  | [a, b, c, d] => do return ⟨← operand 16 a, ← operand 16 b, ← operand 16 c, ← operand 16 d⟩
  | _ => none

/-- The one operand of a command that takes one. -/
def single {α : Type} (parse : List Char → Option α) : List (List Char) → Option α
  | [a] => parse a
  | _ => none

/-! ### Lines -/

/-- The command of a mnemonic and its operands; CRC_BYTES gives as many as it has bytes. -/
def commands (mnemonic : List Char) (args : List (List Char)) : Option (List Instr) :=
  if mnemonic = "CRC_RESET".toList then if args.isEmpty then some [.crcReset] else none
  else if mnemonic = "CRC_UPDATE".toList then (single (operand 8) args).map fun b => [.crcUpdate b]
  else if mnemonic = "CRC_READ".toList then if args.isEmpty then some [.crcRead] else none
  else if mnemonic = "CRC_BYTES".toList then (single byteSequence args).map crcBytes
  else if mnemonic = "ENV_ENCODE".toList then
    match args with
    | seq :: rest => do return [.envEncode (← operand 32 seq) (← channelFrame rest)]
    | [] => none
  else if mnemonic = "ENV_ENCODE_NEXT".toList then (channelFrame args).map fun f => [.envEncodeNext f]
  else if mnemonic = "ENV_DECODE".toList then (single byteSequence args).map fun buf => [.envDecode buf]
  else if mnemonic = "SCALE".toList then (single (operand 16) args).map fun raw => [.scale raw]
  else if mnemonic = "FRAME_ENCODE".toList then
    match args with
    | [st, vals] => do return [.frameEncode (← frameStatus st) (← valueList vals)]
    | _ => none
  else if mnemonic = "FRAME_FROM_STATUS".toList then if args.isEmpty then some [.frameFromStatus] else none
  else if mnemonic = "PROCESS".toList then (single byteSequence args).map fun buf => [.process buf]
  else if mnemonic = "RADIO_IRQ".toList then (single irqFlag args).map fun flag => [.radioIrq flag]
  else if mnemonic = "SET_INIT_STATE".toList then (single (operand 8) args).map fun v => [.setInitState v]
  else if mnemonic = "REG_READ".toList then (single regIndex args).map fun index => [.regRead index]
  else none

/-- One line: a mnemonic, then operands separated by commas; `;` starts a comment; an empty line is no command. -/
def line (cs : List Char) : Option (List Instr) :=
  let text := trim (cs.takeWhile (· != ';'))
  if text.isEmpty then some []
  else
    let mnemonic := text.takeWhile fun c => !isBlank c
    let after := trim (text.dropWhile fun c => !isBlank c)
    let args := if after.isEmpty then [] else (splitOperands 0 after).map trim
    (commands mnemonic args).bind fun is => if is.all Instr.wellFormed then some is else none

/-- A program: the commands of its lines in order. -/
def assemble (text : List Char) : Option (List Instr) :=
  ((splitOn '\n' text).mapM line).map List.flatten

end Sys2Proof.Machine.Asm
end

