-- ==== Sys2Proof/Machine/Flags.lean ====
section
/-! DEFINITION. The block has no condition flags (10_state.md R12). The one status it computes is the status byte of a
response, with the bytes that follow it (30_encoding.md R64, 60_exceptions.md R232). -/

namespace Sys2Proof.Machine

/-- The reason byte of DECODE_ERROR (41_envelope.md R128). -/
def DecodeReason.code : DecodeReason → Byte
  | .truncated => 0x01#8
  | .unknownDiscriminant => 0x02#8
  | .oversize => 0x03#8

/-- The status byte of an error (30_encoding.md R64). -/
def CommandError.code : CommandError → Byte
  | .encodeOverflow => 0x01#8
  | .decodeError _ => 0x02#8
  | .frameTooLarge => 0x03#8
  | .illegalCommand => 0x04#8
  | .illegalOperand => 0x05#8

/-- What the response records of an error (60_exceptions.md R232). -/
def CommandError.info : CommandError → List Byte
  | .encodeOverflow => []
  | .decodeError reason => [reason.code]
  | .frameTooLarge => []
  | .illegalCommand => []
  | .illegalOperand => []

/-- The status byte of OK (30_encoding.md R64). -/
def statusOk : Byte := 0x00#8

/-- A response on the wire: the status byte, then the payload (30_encoding.md R64). -/
def Response.bytes : Response → List Byte
  | .ok payload => statusOk :: payload
  | .error e => e.code :: e.info

/-- Everything on the response port, first on the wire first. -/
def State.responseBytes (s : State) : List Byte := s.rspPort.flatMap Response.bytes

end Sys2Proof.Machine
end

