-- ==== Sys2Proof/Machine/Ports.lean ====
section
/-! DEFINITION. The outside of the block: what a host can do to its ports and its power (00_scope.md R1,
70_reset_and_hazards.md R260), sequences of commands in the order of acceptance (20_memory.md R50), and the orders in
which the commands of several hosts can be accepted (R51). None of it is a step of the block. -/

namespace Sys2Proof.Machine

/-- A host delivers bytes to the command port, at any time, a whole command or a part of one (30_encoding.md R66). -/
def State.deliver (bytes : List Byte) (s : State) : State := s.setCmdPort (s.cmdPort ++ bytes)

/-- The host takes every response off the response port. -/
def State.collect (s : State) : State := { s with rspPort := [] }

/-- Power-on (70_reset_and_hazards.md R260): every register to its reset value, any partly arrived command discarded and
never answered; the build-time parameters stay (R262). DESIGN CHOICE (log 11): complete commands that stand on the port and
have not been accepted are discarded too, and so are responses not collected yet; R260 speaks of neither. -/
def State.powerOn (s : State) : State := { State.reset with params := s.params }

/-- Commands accepted one after the other, each seeing what the earlier ones did (R50); stops at a fault or a refusal. -/
def runCommands : List Instr → State → Result
  | [], s => .next s
  | i :: rest, s =>
    match exec i s with
    | .next s' => runCommands rest s'
    | .fault r => .fault r
    | .refused r => .refused r

/-- The bytes of a sequence of commands on the port (30_encoding.md R60). -/
def encodeAll (commands : List Instr) : List Byte := commands.flatMap encode

/-- The order of acceptance in which host `k` gives its next command whenever `k` is the next entry of `turns`; `none`
where the turns name a host that has no command left, or leave a command behind. Every host keeps its own order (R51). -/
def interleave : List Nat → List (List Instr) → Option (List Instr)
  | [], hosts => if hosts.all List.isEmpty then some [] else none
  | k :: turns, hosts =>
    match hosts[k]? with
    | some (i :: left) => (interleave turns (hosts.set k left)).map (i :: ·)
    | _ => none

end Sys2Proof.Machine
end

