-- ==== Sys2Proof/Safety.lean ====
section
/-! DEFINITION. What counts as a safe state and a safe run: the invariant of the block, in bytes that the host can check,
and a run that never stops (00_scope.md R1 "never halts"). -/

namespace Sys2Proof.Machine

/-- `[len] ++ env` as ENV_ENCODE and ENV_ENCODE_NEXT answer (30_encoding.md R67): 13 envelope bytes with the one
discriminant the block encodes (41_envelope.md R121, R122). -/
def envelopePayload (payload : List Byte) : Bool :=
  payload.length == 14 && payload[0]? == some 0x0D#8 && payload[5]? == some 0x00#8

/-- `[len] ++ frame` as the frame commands answer (30_encoding.md R67): the shape of 42_frame.md R157, at most 69 bytes,
closed by the CRC of the bytes before it, most significant byte first (R152). -/
def framePayload (sync : Byte) : List Byte → Bool
  | len :: b0 :: b1 :: b2 :: rest =>
      len.toNat == 5 + 2 * b2.toNat && decide (b2.toNat ≤ 32) && rest.length == 2 * b2.toNat + 2 && b0 == sync
        && (b1 == 0x01#8 || b1 == 0x81#8)
        && rest.drop (2 * b2.toNat) == be16 (crc16 (b0 :: b1 :: b2 :: rest.take (2 * b2.toNat)))
  | _ => false

/-- A response the block can return (30_encoding.md R64, R67): an OK payload of a length R67 lists and of the shape its
command gives it, or an error other than ENCODE_OVERFLOW (41_envelope.md R124). -/
def Response.legal (sync : Byte) : Response → Bool
  | .ok payload =>
      payload.length == 0 || payload.length == 2 || payload.length == 4 || payload.length == 13
        || envelopePayload payload || framePayload sync payload
  | .error e => e != .encodeOverflow

/-- The invariant of the block: it was built with admissible parameters (42_frame.md R150), and every response on its
port is legal. -/
def State.Inv (s : State) : Prop :=
  admissible s.params = true ∧ ∀ r ∈ s.rspPort, r.legal s.params.syncByte = true

/-- A state from which no number of steps ends in a fault or a refusal. -/
def State.Safe (s : State) : Prop := ∀ n, ∃ t, Sys2Proof.core.run n s = .next t

end Sys2Proof.Machine
end

