-- ==== Sys2Proof/Certificates/Slice0/Obligations.lean ====
section
/-! DEFINITION. The statements about the block, each from the numbered rules of spec/ or from sections of it. The spec's
numbers are written out here as numbers, apart from the definitions of the model that they are compared with. Where a
rule carries the mark `[decision: ...]`, the decision is the spec's own and part of the rule; values the spec marks
`[derived: ...]` are its own inferences, and the docstrings say which clauses they are. -/

namespace Sys2Proof.Claims

open Sys2Proof.Machine

/-! ### Words of the statements -/

/-- The command answers exactly these bytes, leaves these registers, and changes nothing else: the command port, the
parameters and the responses already on the response port are as before. It completes: it ends in a next state. -/
def Answers (i : Instr) (s : State) (response : List Byte) (regs : Registers) : Prop :=
  ∃ r : Response, r.bytes = response ∧ exec i s = .next { s with regs := regs, rspPort := s.rspPort ++ [r] }

/-- The byte that carries a number below 256. -/
def byte (n : Nat) : Byte := BitVec.ofNat 8 n

/-- Two bytes of a number, most significant first (00_scope.md R3). -/
def big2 (n : Nat) : List Byte := [byte (n / 2 ^ 8), byte (n % 2 ^ 8)]

/-- Four bytes of a number, most significant first (00_scope.md R3). -/
def big4 (n : Nat) : List Byte :=
  [byte (n / 2 ^ 24), byte (n / 2 ^ 16 % 2 ^ 8), byte (n / 2 ^ 8 % 2 ^ 8), byte (n % 2 ^ 8)]

/-- The unassigned opcodes, as the last line of 30_encoding.md R65 lists them. -/
def Unassigned (op : Byte) : Prop :=
  op.toNat ≤ 0x0F ∨ (0x13 ≤ op.toNat ∧ op.toNat ≤ 0x1F) ∨ (0x23 ≤ op.toNat ∧ op.toNat ≤ 0x2F) ∨
  (0x33 ≤ op.toNat ∧ op.toNat ≤ 0x3F) ∨ (0x43 ≤ op.toNat ∧ op.toNat ≤ 0x4F) ∨ 0x51 ≤ op.toNat

/-- The opcode column of 30_encoding.md R65. -/
def opcodeOf : Instr → Nat
  | .crcReset => 0x10
  | .crcUpdate _ => 0x11
  | .crcRead => 0x12
  | .envEncode _ _ => 0x20
  | .envEncodeNext _ => 0x21
  | .envDecode _ => 0x22
  | .scale _ => 0x30
  | .frameEncode _ _ => 0x31
  | .frameFromStatus => 0x32
  | .process _ => 0x40
  | .radioIrq _ => 0x41
  | .setInitState _ => 0x42
  | .regRead _ => 0x50

/-- The length of a command, by its format (30_encoding.md R61). -/
def lengthOf : Instr → Nat
  | .crcReset => 1
  | .crcUpdate _ => 2
  | .crcRead => 1
  | .envEncode _ _ => 13
  | .envEncodeNext _ => 9
  | .envDecode buf => 2 + buf.length
  | .scale _ => 3
  | .frameEncode _ vals => 3 + 2 * vals.length
  | .frameFromStatus => 1
  | .process buf => 2 + buf.length
  | .radioIrq _ => 2
  | .setInitState _ => 2
  | .regRead _ => 2

/-- The frame body of 42_frame.md R152, from the formula of R150: sync byte, status, channel count, then
`raw // SCALE_DIV + SCALE_OFFSET` for each value, most significant byte first. -/
def bodyOf (p : Params) (st : Byte) (vals : List Half) : List Byte :=
  [p.syncByte, st, byte vals.length] ++ vals.flatMap fun raw => big2 (raw.toNat / p.scaleDiv + p.scaleOffset)

/-- `[len(frame)] ++ frame` for that body (30_encoding.md R67). -/
def framePayloadOf (p : Params) (st : Byte) (vals : List Half) : List Byte :=
  byte (5 + 2 * vals.length) :: (bodyOf p st vals ++ big2 (crc16 (bodyOf p st vals)).toNat)

/-- Any bytes of an envelope with discriminant 0x00, and padding after the thirteenth. -/
structure RawEnvelope where
  s0 : Byte
  s1 : Byte
  s2 : Byte
  s3 : Byte
  a0 : Byte
  a1 : Byte
  b0 : Byte
  b1 : Byte
  c0 : Byte
  c1 : Byte
  d0 : Byte
  d1 : Byte
  pad : List Byte

/-- The payload on the radio (41_envelope.md R121). -/
def RawEnvelope.bytes (e : RawEnvelope) : List Byte :=
  [e.s0, e.s1, e.s2, e.s3, 0x00#8, e.a0, e.a1, e.b0, e.b1, e.c0, e.c1, e.d0, e.d1] ++ e.pad

/-- Its sequence id, byte 0 the least significant (41_envelope.md R127). -/
def RawEnvelope.seq (e : RawEnvelope) : Nat :=
  e.s0.toNat + e.s1.toNat * 2 ^ 8 + e.s2.toNat * 2 ^ 16 + e.s3.toNat * 2 ^ 24

/-- Its channel values, the low byte first (41_envelope.md R127). -/
def RawEnvelope.values (e : RawEnvelope) : ChannelFrame :=
  ⟨BitVec.ofNat 16 (e.a0.toNat + e.a1.toNat * 2 ^ 8), BitVec.ofNat 16 (e.b0.toNat + e.b1.toNat * 2 ^ 8),
   BitVec.ofNat 16 (e.c0.toNat + e.c1.toNat * 2 ^ 8), BitVec.ofNat 16 (e.d0.toNat + e.d1.toNat * 2 ^ 8)⟩

/-- A polynomial over the field of two elements from the bits of a vector, bit k the coefficient of X^k. -/
noncomputable def polynomial {w : Nat} (v : BitVec w) : Polynomial (ZMod 2) :=
  ∑ k ∈ Finset.range w, if v.getLsbD k then Polynomial.X ^ k else 0

/-- The polynomial of a message, the first byte the most significant. -/
noncomputable def message (bytes : List Byte) : Polynomial (ZMod 2) :=
  bytes.foldl (fun m b => m * Polynomial.X ^ 8 + polynomial b) 0

/-- The PROCESS commands of encoded envelopes, in order. -/
def processAll (es : List (Word × ChannelFrame)) : List Instr :=
  es.map fun e => .process (envelopeEncode ⟨e.1, .channelValues e.2⟩)

/-- The command writes CRC_ACC by building a frame or by resetting it. -/
def restartsCrc : Instr → Bool
  | .crcReset => true
  | .frameEncode _ _ => true
  | .frameFromStatus => true
  | .crcUpdate _ | .crcRead | .envEncode _ _ | .envEncodeNext _ | .envDecode _ | .scale _ | .process _
  | .radioIrq _ | .setInitState _ | .regRead _ => false

/-- The bytes the CRC_UPDATEs of a sequence of commands feed. -/
def updateBytes : List Instr → List Byte
  | [] => []
  | .crcUpdate b :: rest => b :: updateBytes rest
  | _ :: rest => updateBytes rest

end Sys2Proof.Claims

open Sys2Proof Sys2Proof.Machine Sys2Proof.Claims

/-! ### Encoding and decoding -/

/-- Words written out from 30_encoding.md R62 and R65 (and spelled in 95_test_vectors.md) decode to their commands. -/
def Obligations.SpecWordsDecodeToTheirCommands : Prop :=
  decode [0x10#8] = .command .crcReset [] ∧
  decode [0x11#8, 0x31#8] = .command (.crcUpdate 0x31#8) [] ∧
  decode [0x20#8, 0x12#8, 0x34#8, 0x56#8, 0x78#8, 0x00#8, 0x00#8, 0xFF#8, 0xFF#8, 0x80#8, 0x00#8, 0x00#8, 0x01#8] =
    .command (.envEncode 0x12345678#32 ⟨0#16, 0xFFFF#16, 0x8000#16, 1#16⟩) [] ∧
  decode [0x21#8, 0x03#8, 0xE8#8, 0x07#8, 0xD0#8, 0x0B#8, 0xB8#8, 0x0F#8, 0xA0#8] =
    .command (.envEncodeNext ⟨1000#16, 2000#16, 3000#16, 4000#16⟩) [] ∧
  decode [0x30#8, 0x03#8, 0xE8#8] = .command (.scale 1000#16) [] ∧
  decode [0x31#8, 0x81#8, 0x02#8, 0x80#8, 0x00#8, 0xFF#8, 0xFE#8, 0x12#8] =
    .command (.frameEncode 0x81#8 [0x8000#16, 0xFFFE#16]) [0x12#8] ∧
  decode [0x40#8, 0x05#8, 0x05#8, 0x00#8, 0x00#8, 0x00#8, 0x01#8] =
    .command (.process [0x05#8, 0x00#8, 0x00#8, 0x00#8, 0x01#8]) [] ∧
  decode [0x41#8, 0x00#8, 0x50#8] = .command (.radioIrq 0x00#8) [0x50#8] ∧
  decode [0x50#8, 0x0B#8] = .command (.regRead 0x0B#8) [] ∧
  decode [0x13#8, 0x10#8] = .illegalCommand 0x13#8 [0x10#8] ∧
  decode [0x22#8, 0x02#8, 0x00#8] = .incomplete

/-- The decoder reads back every well-formed command from its bytes, whatever bytes follow. -/
def Obligations.DecodeUndoesEncode : Prop :=
  ∀ (i : Instr) (rest : List Byte), i.wellFormed = true → decode (encode i ++ rest) = .command i rest

/-- What decodes to a command is the encoding of that command and the bytes after it, and the command is well formed: no
two byte sequences spell one command. -/
def Obligations.EncodeUndoesDecode : Prop :=
  ∀ (bytes : List Byte) (i : Instr) (rest : List Byte),
    decode bytes = .command i rest → i.wellFormed = true ∧ encode i ++ rest = bytes

/-- The opcode map: each command starts with its own byte, exactly the listed bytes are unassigned, and the first byte
alone decides which command it is. -/
def Obligations.OpcodeByteSelectsTheCommand : Prop :=
  (∀ i : Instr, ∃ operands, encode i = byte (opcodeOf i) :: operands) ∧
  (∀ (op : Byte) (rest : List Byte), decode (op :: rest) = .illegalCommand op rest ↔ Unassigned op) ∧
  (∀ (op : Byte) (rest : List Byte) (i : Instr) (rest' : List Byte),
    decode (op :: rest) = .command i rest' → op.toNat = opcodeOf i) ∧
  (∀ (bytes rest : List Byte) (op : Byte), decode bytes = .illegalCommand op rest → bytes = op :: rest)

/-- 60_exceptions.md R235: an unassigned byte is a command of one byte that responds `04`, changes no register, and
leaves the byte after it as the next opcode. -/
def Obligations.UnassignedByteRespondsIllegalCommand : Prop :=
  ∀ (s : State) (op : Byte) (rest : List Byte), Unassigned op → s.cmdPort = op :: rest →
    ∃ r : Response, r.bytes = [0x04#8] ∧ step s = .next { s with cmdPort := rest, rspPort := s.rspPort ++ [r] }

/-- 30_encoding.md R61 and R60: the length of a command is known from its first bytes, is what its format says, and is
between 1 and 513; the decoder takes exactly that many bytes and waits exactly while fewer are there. -/
def Obligations.CommandLengthIsKnownFromItsFirstBytes : Prop :=
  (∀ (bytes : List Byte) (i : Instr) (rest : List Byte), decode bytes = .command i rest →
    commandLength bytes = some (lengthOf i) ∧ bytes.length = lengthOf i + rest.length) ∧
  (∀ (bytes rest : List Byte) (op : Byte), decode bytes = .illegalCommand op rest →
    commandLength bytes = some 1 ∧ bytes.length = 1 + rest.length) ∧
  (∀ bytes : List Byte, decode bytes = .incomplete ↔ ∀ n, commandLength bytes = some n → bytes.length < n) ∧
  (∀ (bytes : List Byte) (n : Nat), commandLength bytes = some n → 1 ≤ n ∧ n ≤ 513) ∧
  (∀ a b c : Byte, ∃ n, commandLength [a, b, c] = some n) ∧
  (∀ (bytes more : List Byte) (n : Nat), commandLength bytes = some n → commandLength (bytes ++ more) = some n) ∧
  commandLength (0x31#8 :: 0x01#8 :: 0xFF#8 :: []) = some 513

/-- A command of which only a part has arrived has not started: the decoder says incomplete, nothing changes and nothing is
returned, and when the rest has arrived, the step executes it (30_encoding.md §4, R66). That the wait is a step that answers
the same state is the model's reading of "stuck until completed" in 93_implementation_defined.md (log 3, DEDUCED), and the
port as a field of State is log 1. -/
def Obligations.PartialCommandHasNotStarted : Prop :=
  ∀ (i : Instr) (arrived missing : List Byte) (s : State),
    i.wellFormed = true → encode i = arrived ++ missing → missing ≠ [] → s.cmdPort = arrived →
      decode arrived = .incomplete ∧ step s = .next s ∧
      step (s.deliver missing) = exec i { s with cmdPort := [] }

/-- Bytes that arrive after a command never change which command it is. -/
def Obligations.LaterBytesDoNotChangeACommand : Prop :=
  ∀ (bytes more rest : List Byte),
    (∀ i, decode bytes = .command i rest → decode (bytes ++ more) = .command i (rest ++ more)) ∧
    (∀ op, decode bytes = .illegalCommand op rest → decode (bytes ++ more) = .illegalCommand op (rest ++ more))

/-- A step takes the whole command off the port, also one that will respond with an error, and executes it. -/
def Obligations.StepRunsTheDecodedCommand : Prop :=
  ∀ (i : Instr) (rest : List Byte) (s : State), i.wellFormed = true → s.cmdPort = encode i ++ rest →
    step s = exec i { s with cmdPort := rest }

/-! ### The whole machine -/

/-- "Never halts" (00_scope.md R1): a block built with admissible parameters answers a next state at every step of every
run, from every state. A step with no complete command on the port is a next state too, the same one (log 3). -/
def Obligations.NoRunOfTheBlockStops : Prop :=
  ∀ s : State, admissible s.params = true → s.Safe

/-- No rule writes a result that does not fit: the fault of 00_scope.md R4 is never raised, whatever the parameters. -/
def Obligations.NoResultIsOutOfRange : Prop :=
  ∀ (s : State) (r : Fault), step s ≠ .fault r ∧ ∀ i, exec i s ≠ .fault r

/-- 42_frame.md R150: the parameter values a model refuses are those with which some raw value overflows 16 bits or
SCALE_DIV is 0; with them every command that scales is refused by name, and only such commands are. -/
def Obligations.InadmissibleParametersAreRefused : Prop :=
  (∀ p : Params, admissible p = true ↔
    p.scaleDiv ≠ 0 ∧ ∀ raw, raw ≤ 65535 → raw / p.scaleDiv + p.scaleOffset ≤ 0xFFFF) ∧
  (∀ (s : State) (raw : Half) (st : Byte) (vals : List Half), admissible s.params = false →
    (st.toNat = 0x01 ∨ st.toNat = 0x81) → vals.length ≤ 32 →
      exec (.scale raw) s = .refused .inadmissibleParameters ∧
      exec (.frameEncode st vals) s = .refused .inadmissibleParameters ∧
      exec .frameFromStatus s = .refused .inadmissibleParameters) ∧
  (∀ (i : Instr) (s : State) (r : Refusal), exec i s = .refused r →
    r = .inadmissibleParameters ∧ admissible s.params = false ∧
    ((∃ raw, i = .scale raw) ∨ (∃ st vals, i = .frameEncode st vals) ∨ i = .frameFromStatus))

/-- 60_exceptions.md R231, and the frame of every command: one response is added to the response port, the command port
and the parameters are as before, and if the status is not OK no register is written and the response is one of those
R232 lists; an unassigned opcode byte writes no register either. -/
def Obligations.ErrorsWriteNoRegister : Prop :=
  (∀ (i : Instr) (s t : State), exec i s = .next t →
    ∃ r : Response, t.rspPort = s.rspPort ++ [r] ∧ t.cmdPort = s.cmdPort ∧ t.params = s.params ∧
      (r.bytes.head? ≠ some 0x00#8 →
        t.regs = s.regs ∧
        r.bytes ∈ [[0x01#8], [0x02#8, 0x01#8], [0x02#8, 0x02#8], [0x02#8, 0x03#8], [0x03#8], [0x04#8], [0x05#8]])) ∧
  (∀ (op : Byte) (rest : List Byte) (s t : State), decode s.cmdPort = .illegalCommand op rest → step s = .next t →
    t.regs = s.regs ∧ ∃ r : Response, t.rspPort = s.rspPort ++ [r] ∧ r.bytes = [0x04#8])

/-- Which command can report which error (60_exceptions.md §1): ENCODE_OVERFLOW none, DECODE_ERROR the two decoding
commands, FRAME_TOO_LARGE a FRAME_ENCODE of more than 32 values, ILLEGAL_COMMAND no assigned opcode. -/
def Obligations.EachErrorComesFromItsCommands : Prop :=
  ∀ (i : Instr) (s t : State) (r : Response), exec i s = .next t → t.rspPort = s.rspPort ++ [r] →
    r.bytes.head? ≠ some 0x01#8 ∧ r.bytes.head? ≠ some 0x04#8 ∧
    (r.bytes.head? = some 0x02#8 → ∃ buf, i = .envDecode buf ∨ i = .process buf) ∧
    (r.bytes.head? = some 0x03#8 → ∃ st vals, i = .frameEncode st vals ∧ 32 < vals.length)

/-- 60_exceptions.md R236: ILLEGAL_OPERAND when, and only when, an operand is outside its legal set; the command's bytes
are consumed whole. -/
def Obligations.IllegalOperandExactlyWhen : Prop :=
  (∀ (i : Instr) (s : State), Answers i s [0x05#8] s.regs ↔
    (∃ st vals, i = .frameEncode st vals ∧ st.toNat ≠ 0x01 ∧ st.toNat ≠ 0x81) ∨
    (∃ flag, i = .radioIrq flag ∧ flag.toNat ≠ 0x00 ∧ flag.toNat ≠ 0x01) ∨
    (∃ index, i = .regRead index ∧ (index.toNat = 0x07 ∨ 0x0C ≤ index.toNat))) ∧
  (∀ (i : Instr) (s t : State) (r : Response), exec i s = .next t → t.rspPort = s.rspPort ++ [r] →
    r.bytes.head? = some 0x05#8 → Answers i s [0x05#8] s.regs) ∧
  (∀ (i : Instr) (s : State) (rest : List Byte), i.wellFormed = true → s.cmdPort = encode i ++ rest →
    Answers i s [0x05#8] s.regs → ∃ t, step s = .next t ∧ t.cmdPort = rest)

/-- 70_reset_and_hazards.md R261: each register changes only by the commands 10_state.md R11 lists as its writers, and
CRC_RESET changes CRC_ACC alone. -/
def Obligations.EachRegisterHasOnlyItsWriters : Prop :=
  (∀ (i : Instr) (s t : State), exec i s = .next t →
    (t.regs.crcAcc ≠ s.regs.crcAcc →
      i = .crcReset ∨ (∃ b, i = .crcUpdate b) ∨ (∃ st vals, i = .frameEncode st vals) ∨ i = .frameFromStatus) ∧
    (t.regs.txSeq ≠ s.regs.txSeq → ∃ f, i = .envEncodeNext f) ∧
    (t.regs.lastSeq ≠ s.regs.lastSeq → ∃ buf, i = .process buf) ∧
    (t.regs.missedMsg ≠ s.regs.missedMsg → ∃ buf, i = .process buf) ∧
    (t.regs.curValues ≠ s.regs.curValues → ∃ buf, i = .process buf) ∧
    (t.regs.irqCount ≠ s.regs.irqCount → ∃ flag, i = .radioIrq flag) ∧
    (t.regs.missedIrq ≠ s.regs.missedIrq → ∃ flag, i = .radioIrq flag) ∧
    (t.regs.initState ≠ s.regs.initState → ∃ v, i = .setInitState v)) ∧
  (∀ s t : State, exec .crcReset s = .next t → t.regs = { s.regs with crcAcc := 0#16 }) ∧
  (∀ s t : State, step s = .next t → decode s.cmdPort = .incomplete ∨
    (∃ op rest, decode s.cmdPort = .illegalCommand op rest) → t.regs = s.regs)

/-- The commands that only read write no register, and asked again they give the same response; the commands that
overwrite leave, asked twice, the registers that asking once leaves, with the same response; a counting command that
counted counts again (20_memory.md §3; CRC_UPDATE of 0 at CRC_ACC = 0, which 40_crc.md's corner case leaves as it is, is
why that command is not in the last clause). -/
def Obligations.RepeatedCommands : Prop :=
  (∀ (i : Instr) (s t : State), exec i s = .next t →
    (i = .crcRead ∨ (∃ x, i = .regRead x) ∨ (∃ q f, i = .envEncode q f) ∨ (∃ buf, i = .envDecode buf) ∨
      (∃ raw, i = .scale raw)) →
    t.regs = s.regs ∧ ∃ (r : Response) (u : State), exec i t = .next u ∧ u.regs = s.regs ∧
      u.rspPort = s.rspPort ++ [r, r]) ∧
  (∀ (i : Instr) (s t : State), exec i s = .next t →
    (i = .crcReset ∨ (∃ v, i = .setInitState v) ∨ (∃ st vals, i = .frameEncode st vals) ∨ i = .frameFromStatus ∨
      (∃ buf, i = .process buf)) →
    ∃ (r : Response) (u : State), exec i t = .next u ∧ u.regs = t.regs ∧ u.rspPort = s.rspPort ++ [r, r]) ∧
  (∀ (i : Instr) (s t u : State), exec i s = .next t → exec i t = .next u →
    ((∃ f, i = .envEncodeNext f) ∨ i = .radioIrq 0x00#8 ∨ i = .radioIrq 0x01#8) →
    t.regs ≠ s.regs ∧ u.regs ≠ t.regs)

/-- Every step keeps the invariant: admissible parameters, and on the response port nothing but legal responses (a frame
answered to the host has its shape and a CRC that checks; no ENCODE_OVERFLOW). -/
def Obligations.EveryStepKeepsTheInvariant : Prop :=
  ∀ s t : State, s.Inv → step s = .next t → t.Inv

/-- The block right after reset meets the invariant. -/
def Obligations.ResetMeetsTheInvariant : Prop := State.reset.Inv

/-- Reset sets every register to zero (70_reset_and_hazards.md §1, R260) and leaves an empty command port, on which a step
changes nothing. The register clauses are R260's, its decisions D23, D24 and D30 included. The rest is the model's: the port
is a field of its own (log 1), a power-on empties it whatever stands there, complete commands not yet accepted included
(log 11), and a step that waits answers the same state (log 3). -/
def Obligations.ResetClearsEveryRegister : Prop :=
  ∀ s : State, s.powerOn.regs = State.reset.regs ∧ s.powerOn.cmdPort = [] ∧ State.reset.cmdPort = [] ∧
    State.reset.regs.crcAcc = 0x0000#16 ∧ State.reset.regs.txSeq = 0#32 ∧ State.reset.regs.lastSeq = 0#32 ∧
    State.reset.regs.missedMsg = 0#32 ∧ State.reset.regs.irqCount = 0#32 ∧ State.reset.regs.missedIrq = 0#32 ∧
    State.reset.regs.initState = 0x00#8 ∧ State.reset.regs.curValues = ⟨0#16, 0#16, 0#16, 0#16⟩ ∧
    step s.powerOn = .next s.powerOn

/-- 70_reset_and_hazards.md R260: a power-on in the middle of a command sets every register to zero, makes no response, and
what had arrived of the command is gone: the next command delivered is executed as itself, on that state. -/
def Obligations.PowerOnDiscardsAPartialCommand : Prop :=
  ∀ (s : State) (i : Instr) (rest : List Byte), s.cmdPort ≠ [] → decode s.cmdPort = .incomplete → i.wellFormed = true →
    s.powerOn.regs =
      { crcAcc := 0x0000#16, txSeq := 0#32, lastSeq := 0#32, missedMsg := 0#32, irqCount := 0#32, missedIrq := 0#32,
        initState := 0x00#8, curValues := ⟨0#16, 0#16, 0#16, 0#16⟩ } ∧
    s.powerOn.rspPort.length ≤ s.rspPort.length ∧
    step (s.powerOn.deliver (encode i ++ rest)) = exec i { s.powerOn with cmdPort := rest }

/-- 20_memory.md R50: the commands of a stream take effect one at a time, one a step, in the order of the port, each on
the state all earlier ones left. -/
def Obligations.StreamTakesEffectInOrder : Prop :=
  ∀ (commands : List Instr) (rest : List Byte) (s : State),
    (∀ i ∈ commands, i.wellFormed = true) → s.cmdPort = encodeAll commands ++ rest →
      Sys2Proof.core.run commands.length s = runCommands commands { s with cmdPort := rest }

/-- Every possible order of acceptance keeps each host's own order and accepts every command of every host, and nothing
else (20_memory.md §5; `interleave` is the model's account of the orders, log 7). -/
def Obligations.AcceptanceKeepsEachHostsOrder : Prop :=
  ∀ (turns : List Nat) (hosts : List (List Instr)) (order : List Instr), interleave turns hosts = some order →
    (∀ h ∈ hosts, List.Sublist h order) ∧ List.Perm order hosts.flatten

/-- A FRAME_FROM_STATUS of one host racing with a PROCESS of another answers the frame of CUR_VALUES before the PROCESS
or after it, never of a mixture, and both orders are possible (20_memory.md §5, 70_reset_and_hazards.md §2). -/
def Obligations.RacingFrameIsOldOrNewNeverMixed : Prop :=
  (∀ (s t : State) (e : RawEnvelope) (turns : List Nat) (order : List Instr),
    admissible s.params = true → e.pad.length ≤ 19 →
    interleave turns [[.process e.bytes], [.frameFromStatus]] = some order → runCommands order s = .next t →
      t.regs.curValues = e.values ∧ ∃ r ∈ t.rspPort.drop s.rspPort.length,
        r.bytes = 0x00#8 :: framePayloadOf s.params 0x01#8 (channelList s.regs.curValues) ∨
        r.bytes = 0x00#8 :: framePayloadOf s.params 0x01#8 (channelList e.values)) ∧
  (∀ e : RawEnvelope,
    interleave [0, 1] [[.process e.bytes], [.frameFromStatus]] = some [.process e.bytes, .frameFromStatus] ∧
    interleave [1, 0] [[.process e.bytes], [.frameFromStatus]] = some [.frameFromStatus, .process e.bytes])

/-! ### The CRC engine -/

/-- 40_crc.md R100 on plain numbers: the byte XORed into the high byte, then eight rounds, each testing bit 15 before
the shift. -/
def Obligations.CrcStepIsEightShifts : Prop :=
  ∀ (acc : Half) (b : Byte),
    (crcStep acc b).toNat =
      (fun a : Nat => if a / 2 ^ 15 % 2 = 1 then ((a <<< 1) ^^^ 0x1021) % 2 ^ 16 else (a <<< 1) % 2 ^ 16)^[8]
        (acc.toNat ^^^ (b.toNat <<< 8))

/-- 40_crc.md R102. -/
def Obligations.CrcResetClearsTheAccumulator : Prop :=
  ∀ (s : State) (rest : List Byte),
    decode (0x10#8 :: rest) = .command .crcReset rest ∧
    Answers .crcReset s [0x00#8] { s.regs with crcAcc := 0x0000#16 }

/-- 40_crc.md R103; the four values at the end are its corner cases and example, which the spec derives from R100. -/
def Obligations.CrcUpdateFeedsOneByte : Prop :=
  (∀ (s : State) (b : Byte) (rest : List Byte),
    decode (0x11#8 :: b :: rest) = .command (.crcUpdate b) rest ∧
    Answers (.crcUpdate b) s [0x00#8] { s.regs with crcAcc := crcStep s.regs.crcAcc b }) ∧
  crcStep 0x0000#16 0x00#8 = 0x0000#16 ∧ crcStep 0x0000#16 0x01#8 = 0x1021#16 ∧
  crcStep 0xFFFF#16 0x00#8 = 0xE1F0#16 ∧ crcStep 0x0000#16 0x31#8 = 0x2672#16

/-- 40_crc.md R104, with its example: after CRC_RESET and the bytes of "123456789" it answers `00 31 C3`, a
value the spec derives from R100. -/
def Obligations.CrcReadReturnsTheAccumulator : Prop :=
  (∀ (s : State) (rest : List Byte),
    decode (0x12#8 :: rest) = .command .crcRead rest ∧
    Answers .crcRead s (0x00#8 :: big2 s.regs.crcAcc.toNat) s.regs) ∧
  (∀ s : State, ∃ (t : State) (r : Response),
    runCommands (.crcReset :: (Asm.crcBytes
      [0x31#8, 0x32#8, 0x33#8, 0x34#8, 0x35#8, 0x36#8, 0x37#8, 0x38#8, 0x39#8] ++ [.crcRead])) s = .next t ∧
    t.rspPort.getLast? = some r ∧ r.bytes = [0x00#8, 0x31#8, 0xC3#8])

/-- 40_crc.md R105: from reset, the CRC that CRC_READ returns depends on the bytes alone, so running the engine twice
gives the same result; zero bytes from reset change nothing (a consequence the spec derives from R100). -/
def Obligations.CrcDependsOnTheBytesAlone : Prop :=
  (∀ (bytes : List Byte) (s : State),
    ∃ (r : Response) (t : State),
      runCommands (.crcReset :: (Asm.crcBytes bytes ++ [.crcRead])) s = .next t ∧
      t.regs = { s.regs with crcAcc := crc16 bytes } ∧ t.rspPort.getLast? = some r ∧
      r.bytes = 0x00#8 :: big2 (crc16 bytes).toNat) ∧
  crcStep 0x0000#16 0x00#8 = 0x0000#16 ∧
  (∀ bytes : List Byte, crc16 (0x00#8 :: bytes) = crc16 bytes)

/-- The CRC is the one its polynomial defines: `crc16` of a message is the remainder of the message times X^16 on
division by X^16 + X^12 + X^5 + 1 over the field of two elements (40_crc.md §1: polynomial 0x1021, initial value 0, no
reflection, no final XOR). -/
def Obligations.CrcIsThePolynomialRemainder : Prop :=
  ∀ bytes : List Byte,
    (Polynomial.X ^ 16 + Polynomial.X ^ 12 + Polynomial.X ^ 5 + 1 : Polynomial (ZMod 2)) ∣
      message bytes * Polynomial.X ^ 16 - polynomial (crc16 bytes)

/-- A receiver that runs the CRC over a message and its two CRC bytes, most significant first, ends at zero. -/
def Obligations.CrcOverItsOwnBytesIsZero : Prop :=
  ∀ bytes : List Byte, crc16 (bytes ++ be16 (crc16 bytes)) = 0#16

/-- 70_reset_and_hazards.md R270: a host's own CRC is right if no frame command (and no other CRC_RESET) is accepted
between its CRC_RESET and its CRC_READ, whatever other commands are; a frame command leaves the frame's CRC, the same
whatever was accumulated before it. -/
def Obligations.HostCrcNeedsNoFrameCommandBetween : Prop :=
  (∀ (commands : List Instr) (s t : State), (∀ i ∈ commands, restartsCrc i = false) →
    runCommands (.crcReset :: commands) s = .next t →
      t.regs.crcAcc = crc16 (updateBytes commands) ∧
      Answers .crcRead t (0x00#8 :: big2 (crc16 (updateBytes commands)).toNat) t.regs) ∧
  (∀ (s : State) (v : Half), admissible s.params = true →
    ∃ t : State, exec .frameFromStatus s = .next t ∧
      exec .frameFromStatus { s with regs := { s.regs with crcAcc := v } } = .next t ∧
      t.regs.crcAcc = crc16 (bodyOf s.params 0x01#8 (channelList s.regs.curValues))) ∧
  (∀ (s : State) (v : Half) (st : Byte) (vals : List Half), admissible s.params = true →
    (st.toNat = 0x01 ∨ st.toNat = 0x81) → vals.length ≤ 32 →
    ∃ t : State, exec (.frameEncode st vals) s = .next t ∧
      exec (.frameEncode st vals) { s with regs := { s.regs with crcAcc := v } } = .next t ∧
      t.regs.crcAcc = crc16 (bodyOf s.params st vals))

/-! ### The envelope codec -/

/-- 41_envelope.md R121 on plain numbers: thirteen bytes, each field little-endian, the discriminant 0x00 between. -/
def Obligations.EnvelopeLayout : Prop :=
  ∀ (seq : Word) (f : ChannelFrame),
    (envelopeEncode ⟨seq, .channelValues f⟩).map BitVec.toNat =
      [seq.toNat % 2 ^ 8, seq.toNat / 2 ^ 8 % 2 ^ 8, seq.toNat / 2 ^ 16 % 2 ^ 8, seq.toNat / 2 ^ 24, 0x00,
       f.v0.toNat % 2 ^ 8, f.v0.toNat / 2 ^ 8, f.v1.toNat % 2 ^ 8, f.v1.toNat / 2 ^ 8,
       f.v2.toNat % 2 ^ 8, f.v2.toNat / 2 ^ 8, f.v3.toNat % 2 ^ 8, f.v3.toNat / 2 ^ 8]

/-- 41_envelope.md R125: every value is legal, the answer is the length 13 and the envelope, no register is read or
written (ENCODE_OVERFLOW is never taken). -/
def Obligations.EnvEncodeAnswersTheEnvelope : Prop :=
  ∀ (s : State) (seq : Word) (f : ChannelFrame) (rest : List Byte),
    decode (0x20#8 :: (big4 seq.toNat ++ big2 f.v0.toNat ++ big2 f.v1.toNat ++ big2 f.v2.toNat ++ big2 f.v3.toNat
      ++ rest)) = .command (.envEncode seq f) rest ∧
    Answers (.envEncode seq f) s (0x00#8 :: 0x0D#8 :: envelopeEncode ⟨seq, .channelValues f⟩) s.regs

/-- 41_envelope.md R126: the envelope carries TX_SEQ before the increment, and TX_SEQ advances by one modulo 2^32. -/
def Obligations.EnvEncodeNextNumbersTheEnvelope : Prop :=
  ∀ (s : State) (f : ChannelFrame) (rest : List Byte),
    decode (0x21#8 :: (big2 f.v0.toNat ++ big2 f.v1.toNat ++ big2 f.v2.toNat ++ big2 f.v3.toNat ++ rest)) =
      .command (.envEncodeNext f) rest ∧
    Answers (.envEncodeNext f) s (0x00#8 :: 0x0D#8 :: envelopeEncode ⟨s.regs.txSeq, .channelValues f⟩)
      { s.regs with txSeq := BitVec.ofNat 32 ((s.regs.txSeq.toNat + 1) % 2 ^ 32) }

/-- Envelopes sent one after the other carry consecutive sequence ids, starting from TX_SEQ (41_envelope.md §2). -/
def Obligations.TransmittedIdsAreConsecutive : Prop :=
  ∀ (frames : List ChannelFrame) (s : State),
    ∃ t : State, runCommands (frames.map Instr.envEncodeNext) s = .next t ∧
      t.regs = { s.regs with txSeq := BitVec.ofNat 32 (s.regs.txSeq.toNat + frames.length) } ∧
      (t.rspPort.drop s.rspPort.length).map Response.bytes =
        frames.zipIdx.map fun (f, k) =>
          0x00#8 :: 0x0D#8 ::
            envelopeEncode ⟨BitVec.ofNat 32 (s.regs.txSeq.toNat + k), .channelValues f⟩

/-- 41_envelope.md R129, R127 and R128: 13 to 32 bytes with discriminant 0x00 are answered field by field, most
significant byte first, whatever pads them; any other payload is answered with the reason of the first check that fails
(over 32 bytes, under 13, the discriminant). No register is written either way. -/
def Obligations.EnvDecodeAnswersTheFieldsOrTheReason : Prop :=
  (∀ (s : State) (e : RawEnvelope) (rest : List Byte), e.pad.length ≤ 19 →
    decode (0x22#8 :: byte e.bytes.length :: (e.bytes ++ rest)) = .command (.envDecode e.bytes) rest ∧
    Answers (.envDecode e.bytes) s
      [0x00#8, e.s3, e.s2, e.s1, e.s0, 0x00#8, e.a1, e.a0, e.b1, e.b0, e.c1, e.c0, e.d1, e.d0] s.regs) ∧
  (∀ (s : State) (buf : List Byte),
    (32 < buf.length → Answers (.envDecode buf) s [0x02#8, 0x03#8] s.regs) ∧
    (buf.length < 13 → Answers (.envDecode buf) s [0x02#8, 0x01#8] s.regs) ∧
    (13 ≤ buf.length → buf.length ≤ 32 → buf[4]? ≠ some 0x00#8 →
      Answers (.envDecode buf) s [0x02#8, 0x02#8] s.regs))

/-- Decoding undoes encoding, and encoding what decodes gives back the first 13 bytes (41_envelope.md §3: R130, which the
spec derives from R121 and R127). -/
def Obligations.EnvelopeRoundTrip : Prop :=
  (∀ e : Envelope, envelopeDecode (envelopeEncode e) = .envelope e) ∧
  (∀ buf : List Byte, 13 ≤ buf.length → buf.length ≤ 32 → buf[4]? = some 0x00#8 →
    ∃ e, envelopeDecode buf = .envelope e ∧ envelopeEncode e = buf.take 13)

/-! ### The frame encoder -/

/-- 42_frame.md R151, with its corner cases for the default parameters; the value of 1000 is its example, which the spec
derives from R150. -/
def Obligations.ScaleAnswersTheScaledValue : Prop :=
  (∀ (s : State) (raw : Half) (rest : List Byte), admissible s.params = true →
    decode (0x30#8 :: (big2 raw.toNat ++ rest)) = .command (.scale raw) rest ∧
    raw.toNat / s.params.scaleDiv + s.params.scaleOffset ≤ 0xFFFF ∧
    Answers (.scale raw) s (0x00#8 :: big2 (raw.toNat / s.params.scaleDiv + s.params.scaleOffset)) s.regs) ∧
  (∀ raw : Half,
    (raw.toNat ≤ 9 → scaled Params.default raw = some 0x2214#16) ∧
    (32767 ≤ raw.toNat → raw.toNat ≤ 32769 → scaled Params.default raw = some 0x2EE0#16) ∧
    (65530 ≤ raw.toNat → scaled Params.default raw = some 0x3BAD#16)) ∧
  scaled Params.default 1000#16 = some 0x2278#16

/-- The default parameters follow from the range constants, meet the scaling properties, and keep every value inside the
extended range; both instantiations the spec names are admissible (42_frame.md §1). -/
def Obligations.DefaultScalingMeetsItsProperties : Prop :=
  Params.default.scaleDiv = 65536 / (0x3B60 - 0x2260) ∧
  Params.default.scaleOffset = 12000 - 32768 / Params.default.scaleDiv ∧
  Params.default.syncByte = 0xA8#8 ∧
  admissible Params.default = true ∧ admissible Params.offsetAtLow = true ∧
  (∀ raw : Half, ∃ v : Half, scaled Params.default raw = some v ∧ 0x2214 ≤ v.toNat ∧ v.toNat ≤ 0x3BAD ∧
    0x1C20 ≤ v.toNat ∧ v.toNat ≤ 0x41A0 ∧ (raw = 0#16 → v.toNat ≤ 0x2260) ∧ (raw = 0xFFFF#16 → 0x3B60 ≤ v.toNat) ∧
    (raw = 32768#16 → v.toNat = 12000)) ∧
  scaled Params.offsetAtLow 0#16 = some 8800#16 ∧ scaled Params.offsetAtLow 65535#16 = some 15353#16 ∧
  scaled Params.offsetAtLow 32768#16 = some 12076#16

/-- 42_frame.md R154, R152 and R153: an illegal status byte is reported first, then more than 32 values; otherwise the
answer is the frame of 5 + 2N bytes, and CRC_ACC holds the CRC of its body; with the frames of R154's corner case and
example, for the default parameters, which the spec derives from R150, R152 and R100. -/
def Obligations.FrameEncodeBuildsTheFrame : Prop :=
  (∀ (s : State) (st : Byte) (vals : List Half) (rest : List Byte),
    (vals.length < 256 →
      decode (0x31#8 :: st :: byte vals.length :: (vals.flatMap (fun v => big2 v.toNat) ++ rest)) =
        .command (.frameEncode st vals) rest) ∧
    (st.toNat ≠ 0x01 → st.toNat ≠ 0x81 → Answers (.frameEncode st vals) s [0x05#8] s.regs) ∧
    (st.toNat = 0x01 ∨ st.toNat = 0x81 →
      (32 < vals.length → Answers (.frameEncode st vals) s [0x03#8] s.regs) ∧
      (vals.length ≤ 32 → admissible s.params = true →
        Answers (.frameEncode st vals) s (0x00#8 :: framePayloadOf s.params st vals)
          { s.regs with crcAcc := crc16 (bodyOf s.params st vals) }))) ∧
  framePayloadOf Params.default 0x01#8 [] = [0x05#8, 0xA8#8, 0x01#8, 0x00#8, 0x27#8, 0x0C#8] ∧
  framePayloadOf Params.default 0x01#8 [1000#16, 2000#16, 3000#16, 4000#16] =
    [0x0D#8, 0xA8#8, 0x01#8, 0x04#8, 0x22#8, 0x78#8, 0x22#8, 0xDC#8, 0x23#8, 0x40#8, 0x23#8, 0xA4#8, 0x84#8, 0x93#8]

/-- 42_frame.md R156: the Live frame of the four channel values, as FRAME_ENCODE builds it; with the frame of its corner
case, right after reset, which the spec derives from R150 and R152. -/
def Obligations.FrameFromStatusSendsTheCurrentValues : Prop :=
  (∀ (s : State) (rest : List Byte),
    decode (0x32#8 :: rest) = .command .frameFromStatus rest ∧
    exec .frameFromStatus s =
      exec (.frameEncode 0x01#8 [s.regs.curValues.v0, s.regs.curValues.v1, s.regs.curValues.v2, s.regs.curValues.v3]) s ∧
    (admissible s.params = true →
      Answers .frameFromStatus s
        (0x00#8 :: framePayloadOf s.params 0x01#8
          [s.regs.curValues.v0, s.regs.curValues.v1, s.regs.curValues.v2, s.regs.curValues.v3])
        { s.regs with crcAcc := crc16 (bodyOf s.params 0x01#8
          [s.regs.curValues.v0, s.regs.curValues.v1, s.regs.curValues.v2, s.regs.curValues.v3]) })) ∧
  Answers .frameFromStatus State.reset
    [0x00#8, 0x0D#8, 0xA8#8, 0x01#8, 0x04#8, 0x22#8, 0x14#8, 0x22#8, 0x14#8, 0x22#8, 0x14#8, 0x22#8, 0x14#8, 0x34#8, 0x27#8]
    { State.reset.regs with crcAcc := 0x3427#16 }

/-- 42_frame.md R155: after a successful frame command CRC_ACC is the CRC of every byte of the frame but its last two,
which carry it, and a CRC_READ right after returns those two bytes. -/
def Obligations.CrcAccHoldsTheCrcOfTheFrame : Prop :=
  ∀ (i : Instr) (s t : State) (r : Response) (len : Byte) (frame : List Byte),
    (i = .frameFromStatus ∨ ∃ st vals, i = .frameEncode st vals) → exec i s = .next t →
    t.rspPort = s.rspPort ++ [r] → r.bytes = 0x00#8 :: len :: frame →
      t.regs.crcAcc = crc16 (frame.take (frame.length - 2)) ∧
      frame.drop (frame.length - 2) = big2 t.regs.crcAcc.toNat ∧
      Answers .crcRead t (0x00#8 :: frame.drop (frame.length - 2)) t.regs

/-- The shape of every frame, and a FailSafe frame only on request (42_frame.md §2: R157, which the spec derives from R152
and R154, and R158). -/
def Obligations.EveryFrameHasItsShape : Prop :=
  ∀ (i : Instr) (s t : State) (r : Response) (len : Byte) (frame : List Byte),
    exec i s = .next t → t.rspPort = s.rspPort ++ [r] → r.bytes = 0x00#8 :: len :: frame →
    (∀ vals st, i = .frameEncode st vals →
      frame.length = 3 + 2 * vals.length + 2 ∧ len.toNat = frame.length ∧ frame[0]? = some s.params.syncByte ∧
      frame[1]? = some st ∧ (st = 0x01#8 ∨ st = 0x81#8) ∧ frame[2]? = some (byte vals.length)) ∧
    (i = .frameFromStatus →
      frame.length = 3 + 2 * 4 + 2 ∧ len.toNat = frame.length ∧ frame[0]? = some s.params.syncByte ∧
      frame[1]? = some 0x01#8 ∧ frame[2]? = some 0x04#8)

/-! ### The link status -/

/-- 43_link_status.md R180, R181 and R182 on plain numbers: for every payload that decodes, stale or padded ones
included, the loss counter, LAST_SEQ and all four channel values; for any other the reason of the first failed check and
no register. -/
def Obligations.ProcessAppliesTheEnvelopeOrDiscardsIt : Prop :=
  (∀ (s : State) (e : RawEnvelope) (rest : List Byte), e.pad.length ≤ 19 →
    decode (0x40#8 :: byte e.bytes.length :: (e.bytes ++ rest)) = .command (.process e.bytes) rest ∧
    Answers (.process e.bytes) s [0x00#8]
      { s.regs with
        missedMsg :=
          if e.seq > s.regs.lastSeq.toNat then
            BitVec.ofNat 32 ((s.regs.missedMsg.toNat + (e.seq - s.regs.lastSeq.toNat - 1)) % 2 ^ 32)
          else s.regs.missedMsg
        lastSeq := BitVec.ofNat 32 e.seq
        curValues := e.values }) ∧
  (∀ (s : State) (buf : List Byte),
    (32 < buf.length → Answers (.process buf) s [0x02#8, 0x03#8] s.regs) ∧
    (buf.length < 13 → Answers (.process buf) s [0x02#8, 0x01#8] s.regs) ∧
    (13 ≤ buf.length → buf.length ≤ 32 → buf[4]? ≠ some 0x00#8 → Answers (.process buf) s [0x02#8, 0x02#8] s.regs))

/-- Over any sequence of envelopes with increasing ids, MISSED_MSG grows by exactly the number of ids that were skipped:
the distance the last id moved, less the envelopes that arrived (43_link_status.md §1). -/
def Obligations.SkippedIdsAreCounted : Prop :=
  ∀ (es : List (Word × ChannelFrame)) (s t : State),
    List.IsChain (· < ·) (s.regs.lastSeq :: es.map Prod.fst) → runCommands (processAll es) s = .next t →
      t.regs.missedMsg.toNat =
        (s.regs.missedMsg.toNat + (t.regs.lastSeq.toNat - s.regs.lastSeq.toNat - es.length)) % 2 ^ 32 ∧
      s.regs.lastSeq.toNat + es.length ≤ t.regs.lastSeq.toNat

/-- Loss accounting from reset (43_link_status.md §1: R183, which the spec derives from R181, R182 and the reset values):
the ids 1, 2, 4, 5 leave MISSED_MSG = 1; sequential ids leave 0, however many and whatever
they carry; ids 0, 1, 2 carrying [1000, 2000, 3000, 4000] leave those values, LAST_SEQ = 2 and MISSED_MSG = 0. -/
def Obligations.LossAccountingFromReset : Prop :=
  (∀ f1 f2 f4 f5 : ChannelFrame, ∃ t : State,
    runCommands (processAll [(1#32, f1), (2#32, f2), (4#32, f4), (5#32, f5)]) State.reset = .next t ∧
      t.regs.missedMsg = 1#32) ∧
  (∀ (frames : List ChannelFrame) (first : Nat), first ≤ 1 → first + frames.length ≤ 2 ^ 32 → ∃ t : State,
    runCommands (processAll (frames.zipIdx.map fun (f, k) => (BitVec.ofNat 32 (first + k), f))) State.reset =
      .next t ∧ t.regs.missedMsg = 0#32) ∧
  (∃ t : State,
    runCommands (processAll [(0#32, ⟨1000#16, 2000#16, 3000#16, 4000#16⟩), (1#32, ⟨1000#16, 2000#16, 3000#16, 4000#16⟩),
      (2#32, ⟨1000#16, 2000#16, 3000#16, 4000#16⟩)]) State.reset = .next t ∧
      t.regs.curValues = ⟨1000#16, 2000#16, 3000#16, 4000#16⟩ ∧ t.regs.lastSeq = 2#32 ∧ t.regs.missedMsg = 0#32)

/-- End to end (43_link_status.md §1, 41_envelope.md §2, 95_test_vectors.md §1), for every sender and every receiver that
has heard the sender's ids up to TX_SEQ - 1 or beyond (two blocks from reset among them): whatever frames are sent, wraps of
TX_SEQ included, the envelopes handed over in order leave in the receiver the last values and the last id, no message counted
as missed, no other register changed, and the two blocks matching again. -/
def Obligations.LinkEndToEnd : Prop :=
  ∀ (sender receiver : State) (frames : List ChannelFrame) (last : ChannelFrame),
    sender.regs.txSeq.toNat ≤ receiver.regs.lastSeq.toNat + 1 →
    ∃ sent received : State,
      runCommands ((frames ++ [last]).map Instr.envEncodeNext) sender = .next sent ∧
      runCommands ((sent.rspPort.drop sender.rspPort.length).map fun r => .process (r.bytes.drop 2)) receiver =
        .next received ∧
      received.regs =
        { receiver.regs with
          curValues := last
          lastSeq := BitVec.ofNat 32 (sender.regs.txSeq.toNat + frames.length) } ∧
      sent.regs.txSeq.toNat ≤ received.regs.lastSeq.toNat + 1

/-- 43_link_status.md R184 and R185: IRQ_COUNT counts every interrupt, MISSED_IRQ those whose spawn found the queue full,
both modulo 2^32; any other flag is illegal; MISSED_IRQ does not pass IRQ_COUNT unless IRQ_COUNT wraps (which the
spec derives from R184). -/
def Obligations.RadioIrqCounts : Prop :=
  ∀ (s : State) (flag : Byte) (rest : List Byte),
    decode (0x41#8 :: flag :: rest) = .command (.radioIrq flag) rest ∧
    (flag.toNat = 0x01 → Answers (.radioIrq flag) s [0x00#8]
      { s.regs with irqCount := BitVec.ofNat 32 ((s.regs.irqCount.toNat + 1) % 2 ^ 32) }) ∧
    (flag.toNat = 0x00 → Answers (.radioIrq flag) s [0x00#8]
      { s.regs with
        irqCount := BitVec.ofNat 32 ((s.regs.irqCount.toNat + 1) % 2 ^ 32)
        missedIrq := BitVec.ofNat 32 ((s.regs.missedIrq.toNat + 1) % 2 ^ 32) }) ∧
    (flag.toNat ≠ 0x00 → flag.toNat ≠ 0x01 → Answers (.radioIrq flag) s [0x05#8] s.regs) ∧
    (∀ t : State, exec (.radioIrq flag) s = .next t → s.regs.irqCount.toNat ≠ 2 ^ 32 - 1 →
      s.regs.missedIrq.toNat ≤ s.regs.irqCount.toNat → t.regs.missedIrq.toNat ≤ t.regs.irqCount.toNat)

/-- MISSED_IRQ never exceeds IRQ_COUNT unless IRQ_COUNT wraps (43_link_status.md §2), and the counters never go down
while they do not wrap. -/
def Obligations.MissedInterruptsStayBelowInterrupts : Prop :=
  ∀ s t : State, step s = .next t → s.regs.irqCount ≠ 0xFFFFFFFF#32 → s.regs.missedIrq ≤ s.regs.irqCount →
    t.regs.missedIrq ≤ t.regs.irqCount ∧ s.regs.irqCount ≤ t.regs.irqCount ∧ s.regs.missedIrq ≤ t.regs.missedIrq

/-- 43_link_status.md R186 and 10_state.md R18: INIT_STATE takes any value, no other register is affected, and no command
but the REG_READ of it behaves differently for any value it holds. -/
def Obligations.InitStateIsStoredNeverInterpreted : Prop :=
  (∀ (s : State) (v : Byte) (rest : List Byte),
    decode (0x42#8 :: v :: rest) = .command (.setInitState v) rest ∧
    Answers (.setInitState v) s [0x00#8] { s.regs with initState := v } ∧
    Answers (.regRead 0x06#8) s [0x00#8, 0x00#8, 0x00#8, 0x00#8, s.regs.initState] s.regs) ∧
  (∀ (i : Instr) (s t : State) (v : Byte), i ≠ .regRead 0x06#8 → (∀ w, i ≠ .setInitState w) →
    exec i s = .next t →
      t.regs.initState = s.regs.initState ∧
      exec i { s with regs := { s.regs with initState := v } } =
        .next { t with regs := { t.regs with initState := v } })

/-! ### Register read-out -/

/-- 44_register_access.md R210: each register at its index, whole, zero-extended to four bytes, most significant first;
a reserved index is an illegal operand; nothing is written. -/
def Obligations.RegReadReturnsEachRegister : Prop :=
  ∀ (s : State) (index : Byte) (rest : List Byte),
    decode (0x50#8 :: index :: rest) = .command (.regRead index) rest ∧
    Answers (.regRead 0x00#8) s (0x00#8 :: big4 s.regs.crcAcc.toNat) s.regs ∧
    Answers (.regRead 0x01#8) s (0x00#8 :: big4 s.regs.txSeq.toNat) s.regs ∧
    Answers (.regRead 0x02#8) s (0x00#8 :: big4 s.regs.lastSeq.toNat) s.regs ∧
    Answers (.regRead 0x03#8) s (0x00#8 :: big4 s.regs.missedMsg.toNat) s.regs ∧
    Answers (.regRead 0x04#8) s (0x00#8 :: big4 s.regs.irqCount.toNat) s.regs ∧
    Answers (.regRead 0x05#8) s (0x00#8 :: big4 s.regs.missedIrq.toNat) s.regs ∧
    Answers (.regRead 0x06#8) s (0x00#8 :: big4 s.regs.initState.toNat) s.regs ∧
    Answers (.regRead 0x08#8) s (0x00#8 :: big4 s.regs.curValues.v0.toNat) s.regs ∧
    Answers (.regRead 0x09#8) s (0x00#8 :: big4 s.regs.curValues.v1.toNat) s.regs ∧
    Answers (.regRead 0x0A#8) s (0x00#8 :: big4 s.regs.curValues.v2.toNat) s.regs ∧
    Answers (.regRead 0x0B#8) s (0x00#8 :: big4 s.regs.curValues.v3.toNat) s.regs ∧
    (index.toNat = 0x07 ∨ 0x0C ≤ index.toNat → Answers (.regRead index) s [0x05#8] s.regs)

/-! ### Assembler -/

/-- 30_encoding.md R69: CRC_BYTES expands to one CRC_UPDATE for each byte, in order, and to nothing for none; here on the
text of program P1 of 95_test_vectors.md, whose bytes are the ones that file lists. -/
def Obligations.CrcBytesExpandsInOrder : Prop :=
  (Asm.assemble "CRC_RESET\nCRC_BYTES [31 32 33 34 35 36 37 38 39] ; pseudo\nCRC_READ\nREG_READ CRC_ACC".toList).map
      encodeAll =
    some [0x10#8, 0x11#8, 0x31#8, 0x11#8, 0x32#8, 0x11#8, 0x33#8, 0x11#8, 0x34#8, 0x11#8, 0x35#8, 0x11#8, 0x36#8,
      0x11#8, 0x37#8, 0x11#8, 0x38#8, 0x11#8, 0x39#8, 0x12#8, 0x50#8, 0x00#8] ∧
  Asm.line "CRC_BYTES []".toList = some []
end

