-- ==== Sys2Proof/Laws/Bytes.lean ====
section
/-! SUPPORT. Byte order: splitting a value into bytes and joining bytes into a value undo each other, and what the bytes
are as numbers. -/

namespace Sys2Proof

@[simp] theorem length_be16 (v : Half) : (be16 v).length = 2 := rfl
@[simp] theorem length_be32 (v : Word) : (be32 v).length = 4 := rfl
@[simp] theorem length_le16 (v : Half) : (le16 v).length = 2 := rfl
@[simp] theorem length_le32 (v : Word) : (le32 v).length = 4 := rfl

theorem half_toNat (hi lo : Byte) : (half hi lo).toNat = hi.toNat * 2 ^ 8 + lo.toNat := by
  have := lo.isLt
  simp only [half, BitVec.toNat_append]
  rw [← Nat.shiftLeft_add_eq_or_of_lt lo.isLt, Nat.shiftLeft_eq]

theorem word_toNat (b3 b2 b1 b0 : Byte) :
    (word b3 b2 b1 b0).toNat =
      b3.toNat * 2 ^ 24 + b2.toNat * 2 ^ 16 + b1.toNat * 2 ^ 8 + b0.toNat := by
  simp only [word, BitVec.toNat_append]
  rw [← Nat.shiftLeft_add_eq_or_of_lt b0.isLt, ← Nat.shiftLeft_add_eq_or_of_lt b1.isLt,
    ← Nat.shiftLeft_add_eq_or_of_lt b2.isLt]
  simp only [Nat.shiftLeft_eq]
  omega

/-- A byte of a value as a number. -/
theorem extractByte_toNat {w : Nat} (v : BitVec w) (k : Nat) :
    (v.extractLsb' k 8).toNat = v.toNat / 2 ^ k % 2 ^ 8 := by
  simp [BitVec.extractLsb'_toNat, Nat.shiftRight_eq_div_pow]

@[simp] theorem half_of_bytes (v : Half) : half (v.extractLsb' 8 8) (v.extractLsb' 0 8) = v := by
  apply BitVec.eq_of_toNat_eq
  rw [half_toNat, extractByte_toNat, extractByte_toNat]
  omega

@[simp] theorem word_of_bytes (v : Word) :
    word (v.extractLsb' 24 8) (v.extractLsb' 16 8) (v.extractLsb' 8 8) (v.extractLsb' 0 8) = v := by
  apply BitVec.eq_of_toNat_eq
  rw [word_toNat]
  simp only [extractByte_toNat]
  omega

@[simp] theorem be16_half (hi lo : Byte) : be16 (half hi lo) = [hi, lo] := by
  simp only [be16, List.cons.injEq, and_true]
  constructor <;> apply BitVec.eq_of_toNat_eq <;> rw [extractByte_toNat, half_toNat] <;> omega

@[simp] theorem le16_half (hi lo : Byte) : le16 (half hi lo) = [lo, hi] := by
  simp only [le16, List.cons.injEq, and_true]
  constructor <;> apply BitVec.eq_of_toNat_eq <;> rw [extractByte_toNat, half_toNat] <;> omega

@[simp] theorem be32_word (b3 b2 b1 b0 : Byte) : be32 (word b3 b2 b1 b0) = [b3, b2, b1, b0] := by
  simp only [be32, List.cons.injEq, and_true]
  refine ⟨?_, ?_, ?_, ?_⟩ <;> apply BitVec.eq_of_toNat_eq <;> rw [extractByte_toNat, word_toNat] <;> omega

@[simp] theorem le32_word (b3 b2 b1 b0 : Byte) : le32 (word b3 b2 b1 b0) = [b0, b1, b2, b3] := by
  simp only [le32, List.cons.injEq, and_true]
  refine ⟨?_, ?_, ?_, ?_⟩ <;> apply BitVec.eq_of_toNat_eq <;> rw [extractByte_toNat, word_toNat] <;> omega

@[simp] theorem length_flatMap_be16 (vals : List Half) : (vals.flatMap be16).length = 2 * vals.length := by
  induction vals with
  | nil => rfl
  | cons v vs ih => simp [List.flatMap_cons, ih]; omega

/-- The values of format FFRM survive being written and read. -/
@[simp] theorem halves_flatMap_be16 (vals : List Half) : halves (vals.flatMap be16) = vals := by
  induction vals with
  | nil => rfl
  | cons v vs ih =>
    simp only [List.flatMap_cons, be16, List.cons_append, List.nil_append, halves, half_of_bytes, ih]

/-- An even number of bytes survives being read as values and written. -/
theorem flatMap_be16_halves (n : Nat) (bytes : List Byte) (h : bytes.length = 2 * n) :
    (halves bytes).flatMap be16 = bytes ∧ (halves bytes).length = n := by
  induction n generalizing bytes with
  | zero => simp_all [halves]
  | succ n ih =>
    match bytes, h with
    | hi :: lo :: rest, h =>
      have hr : rest.length = 2 * n := by simp at h; omega
      obtain ⟨h1, h2⟩ := ih rest hr
      simp [halves, List.flatMap_cons, h1, h2]

end Sys2Proof
end

