-- ==== Sys2Proof/Laws/Decode.lean ====
section
/-! SUPPORT. What the decoder does on each opcode, and what each format reads: a command exactly when its bytes have
arrived, and then exactly those bytes. -/

namespace Sys2Proof

/-! ### The opcode selects the format (30_encoding.md R65) -/

@[simp] theorem decode_nil : decode [] = .incomplete := rfl
@[simp] theorem decode_crcReset (r : List Byte) : decode (0x10#8 :: r) = formatF0 .crcReset r := rfl
@[simp] theorem decode_crcUpdate (r : List Byte) : decode (0x11#8 :: r) = formatF1 .crcUpdate r := rfl
@[simp] theorem decode_crcRead (r : List Byte) : decode (0x12#8 :: r) = formatF0 .crcRead r := rfl
@[simp] theorem decode_envEncode (r : List Byte) : decode (0x20#8 :: r) = formatFENV .envEncode r := rfl
@[simp] theorem decode_envEncodeNext (r : List Byte) : decode (0x21#8 :: r) = formatFV4 .envEncodeNext r := rfl
@[simp] theorem decode_envDecode (r : List Byte) : decode (0x22#8 :: r) = formatFBUF .envDecode r := rfl
@[simp] theorem decode_scale (r : List Byte) : decode (0x30#8 :: r) = formatF2 .scale r := rfl
@[simp] theorem decode_frameEncode (r : List Byte) : decode (0x31#8 :: r) = formatFFRM .frameEncode r := rfl
@[simp] theorem decode_frameFromStatus (r : List Byte) : decode (0x32#8 :: r) = formatF0 .frameFromStatus r := rfl
@[simp] theorem decode_process (r : List Byte) : decode (0x40#8 :: r) = formatFBUF .process r := rfl
@[simp] theorem decode_radioIrq (r : List Byte) : decode (0x41#8 :: r) = formatF1 .radioIrq r := rfl
@[simp] theorem decode_setInitState (r : List Byte) : decode (0x42#8 :: r) = formatF1 .setInitState r := rfl
@[simp] theorem decode_regRead (r : List Byte) : decode (0x50#8 :: r) = formatF1 .regRead r := rfl

/-- Every opcode byte is one of the thirteen or unassigned: the case split of every proof about `decode`. -/
theorem opcode_cases (op : Byte) :
    op = 0x10#8 ∨ op = 0x11#8 ∨ op = 0x12#8 ∨ op = 0x20#8 ∨ op = 0x21#8 ∨ op = 0x22#8 ∨ op = 0x30#8 ∨
    op = 0x31#8 ∨ op = 0x32#8 ∨ op = 0x40#8 ∨ op = 0x41#8 ∨ op = 0x42#8 ∨ op = 0x50#8 ∨
    (formatOf op = none ∧ ∀ rest, decode (op :: rest) = .illegalCommand op rest) := by
  by_cases h : formatOf op = none
  · refine .inr (.inr (.inr (.inr (.inr (.inr (.inr (.inr (.inr (.inr (.inr (.inr (.inr ⟨h, ?_⟩))))))))))))
    intro rest
    unfold formatOf at h
    split at h <;> cases h
    simp_all [decode]
  · unfold formatOf at h
    simp only [BitVec.toNat_eq] at *
    split at h <;> simp_all

/-! ### Each format, read -/

@[simp] theorem formatF1_cons (mk : Byte → Instr) (b : Byte) (r : List Byte) :
    formatF1 mk (b :: r) = .command (mk b) r := rfl

@[simp] theorem formatF2_be16 (mk : Half → Instr) (v : Half) (r : List Byte) :
    formatF2 mk (be16 v ++ r) = .command (mk v) r := by
  simp [formatF2, be16]

@[simp] theorem formatFV4_toBytes (mk : ChannelFrame → Instr) (f : ChannelFrame) (r : List Byte) :
    formatFV4 mk (f.toBytes ++ r) = .command (mk f) r := by
  simp [formatFV4, ChannelFrame.toBytes, be16]

@[simp] theorem formatFENV_bytes (mk : Word → ChannelFrame → Instr) (seq : Word) (f : ChannelFrame) (r : List Byte) :
    formatFENV mk (be32 seq ++ (f.toBytes ++ r)) = .command (mk seq f) r := by
  simp [formatFENV, be32]

theorem lengthByte_toNat {n : Nat} (h : n < 256) : (lengthByte n).toNat = n := by
  simp [lengthByte]; omega

theorem formatFBUF_bytes (mk : List Byte → Instr) (buf r : List Byte) (h : buf.length < 256) :
    formatFBUF mk (lengthByte buf.length :: (buf ++ r)) = .command (mk buf) r := by
  simp [formatFBUF, lengthByte_toNat h]

theorem formatFFRM_bytes (mk : Byte → List Half → Instr) (st : Byte) (vals : List Half) (r : List Byte)
    (h : vals.length < 256) :
    formatFFRM mk (st :: lengthByte vals.length :: (vals.flatMap be16 ++ r)) = .command (mk st vals) r := by
  have e : (vals.flatMap be16).length = 2 * vals.length := length_flatMap_be16 vals
  simp only [formatFFRM, lengthByte_toNat h]
  rw [if_neg (by rw [List.length_append, e]; omega), ← e, List.take_left, List.drop_left, halves_flatMap_be16]

/-! ### Each format, inverted: what it read when it read a command -/

theorem formatF1_inv {mk : Byte → Instr} {bytes rest : List Byte} {i : Instr}
    (h : formatF1 mk bytes = .command i rest) : ∃ b, i = mk b ∧ bytes = b :: rest := by
  match bytes, h with
  | b :: r, h => cases h; exact ⟨b, rfl, rfl⟩

theorem formatF2_inv {mk : Half → Instr} {bytes rest : List Byte} {i : Instr}
    (h : formatF2 mk bytes = .command i rest) : ∃ v, i = mk v ∧ bytes = be16 v ++ rest := by
  match bytes, h with
  | a :: b :: r, h => cases h; exact ⟨half a b, rfl, by simp⟩

theorem formatFV4_inv {mk : ChannelFrame → Instr} {bytes rest : List Byte} {i : Instr}
    (h : formatFV4 mk bytes = .command i rest) : ∃ f : ChannelFrame, i = mk f ∧ bytes = f.toBytes ++ rest := by
  unfold formatFV4 at h
  split at h
  · cases h; exact ⟨_, rfl, by simp [ChannelFrame.toBytes]⟩
  · cases h

theorem formatFENV_inv {mk : Word → ChannelFrame → Instr} {bytes rest : List Byte} {i : Instr}
    (h : formatFENV mk bytes = .command i rest) :
    ∃ (seq : Word) (f : ChannelFrame), i = mk seq f ∧ bytes = be32 seq ++ (f.toBytes ++ rest) := by
  unfold formatFENV at h
  split at h
  · obtain ⟨f, rfl, rfl⟩ := formatFV4_inv h
    exact ⟨_, f, rfl, by simp⟩
  · cases h

theorem formatFBUF_inv {mk : List Byte → Instr} {bytes rest : List Byte} {i : Instr}
    (h : formatFBUF mk bytes = .command i rest) :
    ∃ buf : List Byte, buf.length < 256 ∧ i = mk buf ∧ bytes = lengthByte buf.length :: (buf ++ rest) := by
  match bytes, h with
  | len :: r, h =>
    simp only [formatFBUF] at h
    split at h
    · cases h
    · next hl =>
      cases h
      have e : (r.take len.toNat).length = len.toNat := by simp; omega
      refine ⟨_, by rw [e]; exact len.isLt, rfl, ?_⟩
      rw [e, List.take_append_drop]
      simp [lengthByte]

theorem formatFFRM_inv {mk : Byte → List Half → Instr} {bytes rest : List Byte} {i : Instr}
    (h : formatFFRM mk bytes = .command i rest) :
    ∃ (st : Byte) (vals : List Half), vals.length < 256 ∧ i = mk st vals ∧
      bytes = st :: lengthByte vals.length :: (vals.flatMap be16 ++ rest) := by
  match bytes, h with
  | st :: n :: r, h =>
    simp only [formatFFRM] at h
    split at h
    · cases h
    · next hl =>
      cases h
      obtain ⟨h1, h2⟩ := flatMap_be16_halves n.toNat (r.take (2 * n.toNat)) (by simp; omega)
      refine ⟨st, _, by rw [h2]; exact n.isLt, rfl, ?_⟩
      rw [h1, h2, List.take_append_drop]
      simp [lengthByte]

/-! ### Each format waits exactly while its bytes are not there, and never calls a command illegal -/

theorem formatF1_incomplete {mk : Byte → Instr} {bytes : List Byte} :
    formatF1 mk bytes = .incomplete ↔ bytes.length < 1 := by
  cases bytes <;> simp [formatF1]

theorem formatF2_incomplete {mk : Half → Instr} {bytes : List Byte} :
    formatF2 mk bytes = .incomplete ↔ bytes.length < 2 := by
  rcases bytes with _ | ⟨a, _ | ⟨b, r⟩⟩ <;> simp [formatF2]

theorem formatFV4_incomplete {mk : ChannelFrame → Instr} {bytes : List Byte} :
    formatFV4 mk bytes = .incomplete ↔ bytes.length < 8 := by
  rcases bytes with _ | ⟨a, _ | ⟨b, _ | ⟨c, _ | ⟨d, _ | ⟨e, _ | ⟨f, _ | ⟨g, _ | ⟨h, r⟩⟩⟩⟩⟩⟩⟩⟩ <;> simp [formatFV4]

theorem formatFENV_incomplete {mk : Word → ChannelFrame → Instr} {bytes : List Byte} :
    formatFENV mk bytes = .incomplete ↔ bytes.length < 12 := by
  rcases bytes with _ | ⟨a, _ | ⟨b, _ | ⟨c, _ | ⟨d, r⟩⟩⟩⟩
  case cons.cons.cons.cons =>
    rw [formatFENV, formatFV4_incomplete]
    simp only [List.length_cons]
    omega
  all_goals simp [formatFENV]

theorem formatFBUF_incomplete {mk : List Byte → Instr} {len : Byte} {rest : List Byte} :
    formatFBUF mk (len :: rest) = .incomplete ↔ rest.length < len.toNat := by
  simp [formatFBUF]

theorem formatFFRM_incomplete {mk : Byte → List Half → Instr} {st n : Byte} {rest : List Byte} :
    formatFFRM mk (st :: n :: rest) = .incomplete ↔ rest.length < 2 * n.toNat := by
  simp [formatFFRM]

theorem formatF1_legal {mk : Byte → Instr} {bytes rest : List Byte} {op : Byte} :
    formatF1 mk bytes ≠ .illegalCommand op rest := by
  unfold formatF1; split <;> simp

theorem formatF2_legal {mk : Half → Instr} {bytes rest : List Byte} {op : Byte} :
    formatF2 mk bytes ≠ .illegalCommand op rest := by
  unfold formatF2; split <;> simp

theorem formatFV4_legal {mk : ChannelFrame → Instr} {bytes rest : List Byte} {op : Byte} :
    formatFV4 mk bytes ≠ .illegalCommand op rest := by
  unfold formatFV4; split <;> simp

theorem formatFENV_legal {mk : Word → ChannelFrame → Instr} {bytes rest : List Byte} {op : Byte} :
    formatFENV mk bytes ≠ .illegalCommand op rest := by
  unfold formatFENV; split
  · exact formatFV4_legal
  · simp

theorem formatFBUF_legal {mk : List Byte → Instr} {bytes rest : List Byte} {op : Byte} :
    formatFBUF mk bytes ≠ .illegalCommand op rest := by
  unfold formatFBUF; split
  · split <;> simp
  · simp

theorem formatFFRM_legal {mk : Byte → List Half → Instr} {bytes rest : List Byte} {op : Byte} :
    formatFFRM mk bytes ≠ .illegalCommand op rest := by
  unfold formatFFRM; split
  · split <;> simp
  · simp

/-- Only an unassigned opcode byte decodes to an illegal command, which is that byte alone. -/
theorem decode_illegal_inv {bytes rest : List Byte} {op : Byte} (h : decode bytes = .illegalCommand op rest) :
    bytes = op :: rest ∧ formatOf op = none := by
  match bytes, h with
  | o :: r, h =>
    rcases opcode_cases o with rfl | rfl | rfl | rfl | rfl | rfl | rfl | rfl | rfl | rfl | rfl | rfl | rfl | ⟨hf, hd⟩
    · cases h
    · exact absurd h formatF1_legal
    · cases h
    · exact absurd h formatFENV_legal
    · exact absurd h formatFV4_legal
    · exact absurd h formatFBUF_legal
    · exact absurd h formatF2_legal
    · exact absurd h formatFFRM_legal
    · cases h
    · exact absurd h formatFBUF_legal
    · exact absurd h formatF1_legal
    · exact absurd h formatF1_legal
    · exact absurd h formatF1_legal
    · rw [hd] at h
      cases h
      exact ⟨rfl, hf⟩

theorem decode_of_unassigned {op : Byte} (h : formatOf op = none) (rest : List Byte) :
    decode (op :: rest) = .illegalCommand op rest := by
  rcases opcode_cases op with
    rfl | rfl | rfl | rfl | rfl | rfl | rfl | rfl | rfl | rfl | rfl | rfl | rfl | ⟨-, hd⟩
  case inr.inr.inr.inr.inr.inr.inr.inr.inr.inr.inr.inr.inr => exact hd rest
  all_goals exact absurd h (by decide)

end Sys2Proof
end

