-- ==== Sys2Proof/Laws/State.lean ====
section
/-! SUPPORT. What each register write and each port operation leaves in each field of the state. -/

namespace Sys2Proof.Machine

variable (s : State)

/-! ### After `crcAcc <- v` -/

@[simp] theorem State.setCrcAcc_crcAcc (v : Half) : (s.setCrcAcc v).regs.crcAcc = v := rfl
@[simp] theorem State.setCrcAcc_txSeq (v : Half) : (s.setCrcAcc v).regs.txSeq = s.regs.txSeq := rfl
@[simp] theorem State.setCrcAcc_lastSeq (v : Half) : (s.setCrcAcc v).regs.lastSeq = s.regs.lastSeq := rfl
@[simp] theorem State.setCrcAcc_missedMsg (v : Half) : (s.setCrcAcc v).regs.missedMsg = s.regs.missedMsg := rfl
@[simp] theorem State.setCrcAcc_irqCount (v : Half) : (s.setCrcAcc v).regs.irqCount = s.regs.irqCount := rfl
@[simp] theorem State.setCrcAcc_missedIrq (v : Half) : (s.setCrcAcc v).regs.missedIrq = s.regs.missedIrq := rfl
@[simp] theorem State.setCrcAcc_initState (v : Half) : (s.setCrcAcc v).regs.initState = s.regs.initState := rfl
@[simp] theorem State.setCrcAcc_curValues (v : Half) : (s.setCrcAcc v).regs.curValues = s.regs.curValues := rfl
@[simp] theorem State.setCrcAcc_cmdPort (v : Half) : (s.setCrcAcc v).cmdPort = s.cmdPort := rfl
@[simp] theorem State.setCrcAcc_rspPort (v : Half) : (s.setCrcAcc v).rspPort = s.rspPort := rfl
@[simp] theorem State.setCrcAcc_params (v : Half) : (s.setCrcAcc v).params = s.params := rfl

/-! ### After `txSeq <- v` -/

@[simp] theorem State.setTxSeq_crcAcc (v : Word) : (s.setTxSeq v).regs.crcAcc = s.regs.crcAcc := rfl
@[simp] theorem State.setTxSeq_txSeq (v : Word) : (s.setTxSeq v).regs.txSeq = v := rfl
@[simp] theorem State.setTxSeq_lastSeq (v : Word) : (s.setTxSeq v).regs.lastSeq = s.regs.lastSeq := rfl
@[simp] theorem State.setTxSeq_missedMsg (v : Word) : (s.setTxSeq v).regs.missedMsg = s.regs.missedMsg := rfl
@[simp] theorem State.setTxSeq_irqCount (v : Word) : (s.setTxSeq v).regs.irqCount = s.regs.irqCount := rfl
@[simp] theorem State.setTxSeq_missedIrq (v : Word) : (s.setTxSeq v).regs.missedIrq = s.regs.missedIrq := rfl
@[simp] theorem State.setTxSeq_initState (v : Word) : (s.setTxSeq v).regs.initState = s.regs.initState := rfl
@[simp] theorem State.setTxSeq_curValues (v : Word) : (s.setTxSeq v).regs.curValues = s.regs.curValues := rfl
@[simp] theorem State.setTxSeq_cmdPort (v : Word) : (s.setTxSeq v).cmdPort = s.cmdPort := rfl
@[simp] theorem State.setTxSeq_rspPort (v : Word) : (s.setTxSeq v).rspPort = s.rspPort := rfl
@[simp] theorem State.setTxSeq_params (v : Word) : (s.setTxSeq v).params = s.params := rfl

/-! ### After `lastSeq <- v` -/

@[simp] theorem State.setLastSeq_crcAcc (v : Word) : (s.setLastSeq v).regs.crcAcc = s.regs.crcAcc := rfl
@[simp] theorem State.setLastSeq_txSeq (v : Word) : (s.setLastSeq v).regs.txSeq = s.regs.txSeq := rfl
@[simp] theorem State.setLastSeq_lastSeq (v : Word) : (s.setLastSeq v).regs.lastSeq = v := rfl
@[simp] theorem State.setLastSeq_missedMsg (v : Word) : (s.setLastSeq v).regs.missedMsg = s.regs.missedMsg := rfl
@[simp] theorem State.setLastSeq_irqCount (v : Word) : (s.setLastSeq v).regs.irqCount = s.regs.irqCount := rfl
@[simp] theorem State.setLastSeq_missedIrq (v : Word) : (s.setLastSeq v).regs.missedIrq = s.regs.missedIrq := rfl
@[simp] theorem State.setLastSeq_initState (v : Word) : (s.setLastSeq v).regs.initState = s.regs.initState := rfl
@[simp] theorem State.setLastSeq_curValues (v : Word) : (s.setLastSeq v).regs.curValues = s.regs.curValues := rfl
@[simp] theorem State.setLastSeq_cmdPort (v : Word) : (s.setLastSeq v).cmdPort = s.cmdPort := rfl
@[simp] theorem State.setLastSeq_rspPort (v : Word) : (s.setLastSeq v).rspPort = s.rspPort := rfl
@[simp] theorem State.setLastSeq_params (v : Word) : (s.setLastSeq v).params = s.params := rfl

/-! ### After `missedMsg <- v` -/

@[simp] theorem State.setMissedMsg_crcAcc (v : Word) : (s.setMissedMsg v).regs.crcAcc = s.regs.crcAcc := rfl
@[simp] theorem State.setMissedMsg_txSeq (v : Word) : (s.setMissedMsg v).regs.txSeq = s.regs.txSeq := rfl
@[simp] theorem State.setMissedMsg_lastSeq (v : Word) : (s.setMissedMsg v).regs.lastSeq = s.regs.lastSeq := rfl
@[simp] theorem State.setMissedMsg_missedMsg (v : Word) : (s.setMissedMsg v).regs.missedMsg = v := rfl
@[simp] theorem State.setMissedMsg_irqCount (v : Word) : (s.setMissedMsg v).regs.irqCount = s.regs.irqCount := rfl
@[simp] theorem State.setMissedMsg_missedIrq (v : Word) : (s.setMissedMsg v).regs.missedIrq = s.regs.missedIrq := rfl
@[simp] theorem State.setMissedMsg_initState (v : Word) : (s.setMissedMsg v).regs.initState = s.regs.initState := rfl
@[simp] theorem State.setMissedMsg_curValues (v : Word) : (s.setMissedMsg v).regs.curValues = s.regs.curValues := rfl
@[simp] theorem State.setMissedMsg_cmdPort (v : Word) : (s.setMissedMsg v).cmdPort = s.cmdPort := rfl
@[simp] theorem State.setMissedMsg_rspPort (v : Word) : (s.setMissedMsg v).rspPort = s.rspPort := rfl
@[simp] theorem State.setMissedMsg_params (v : Word) : (s.setMissedMsg v).params = s.params := rfl

/-! ### After `irqCount <- v` -/

@[simp] theorem State.setIrqCount_crcAcc (v : Word) : (s.setIrqCount v).regs.crcAcc = s.regs.crcAcc := rfl
@[simp] theorem State.setIrqCount_txSeq (v : Word) : (s.setIrqCount v).regs.txSeq = s.regs.txSeq := rfl
@[simp] theorem State.setIrqCount_lastSeq (v : Word) : (s.setIrqCount v).regs.lastSeq = s.regs.lastSeq := rfl
@[simp] theorem State.setIrqCount_missedMsg (v : Word) : (s.setIrqCount v).regs.missedMsg = s.regs.missedMsg := rfl
@[simp] theorem State.setIrqCount_irqCount (v : Word) : (s.setIrqCount v).regs.irqCount = v := rfl
@[simp] theorem State.setIrqCount_missedIrq (v : Word) : (s.setIrqCount v).regs.missedIrq = s.regs.missedIrq := rfl
@[simp] theorem State.setIrqCount_initState (v : Word) : (s.setIrqCount v).regs.initState = s.regs.initState := rfl
@[simp] theorem State.setIrqCount_curValues (v : Word) : (s.setIrqCount v).regs.curValues = s.regs.curValues := rfl
@[simp] theorem State.setIrqCount_cmdPort (v : Word) : (s.setIrqCount v).cmdPort = s.cmdPort := rfl
@[simp] theorem State.setIrqCount_rspPort (v : Word) : (s.setIrqCount v).rspPort = s.rspPort := rfl
@[simp] theorem State.setIrqCount_params (v : Word) : (s.setIrqCount v).params = s.params := rfl

/-! ### After `missedIrq <- v` -/

@[simp] theorem State.setMissedIrq_crcAcc (v : Word) : (s.setMissedIrq v).regs.crcAcc = s.regs.crcAcc := rfl
@[simp] theorem State.setMissedIrq_txSeq (v : Word) : (s.setMissedIrq v).regs.txSeq = s.regs.txSeq := rfl
@[simp] theorem State.setMissedIrq_lastSeq (v : Word) : (s.setMissedIrq v).regs.lastSeq = s.regs.lastSeq := rfl
@[simp] theorem State.setMissedIrq_missedMsg (v : Word) : (s.setMissedIrq v).regs.missedMsg = s.regs.missedMsg := rfl
@[simp] theorem State.setMissedIrq_irqCount (v : Word) : (s.setMissedIrq v).regs.irqCount = s.regs.irqCount := rfl
@[simp] theorem State.setMissedIrq_missedIrq (v : Word) : (s.setMissedIrq v).regs.missedIrq = v := rfl
@[simp] theorem State.setMissedIrq_initState (v : Word) : (s.setMissedIrq v).regs.initState = s.regs.initState := rfl
@[simp] theorem State.setMissedIrq_curValues (v : Word) : (s.setMissedIrq v).regs.curValues = s.regs.curValues := rfl
@[simp] theorem State.setMissedIrq_cmdPort (v : Word) : (s.setMissedIrq v).cmdPort = s.cmdPort := rfl
@[simp] theorem State.setMissedIrq_rspPort (v : Word) : (s.setMissedIrq v).rspPort = s.rspPort := rfl
@[simp] theorem State.setMissedIrq_params (v : Word) : (s.setMissedIrq v).params = s.params := rfl

/-! ### After `initState <- v` -/

@[simp] theorem State.setInitState_crcAcc (v : Byte) : (s.setInitState v).regs.crcAcc = s.regs.crcAcc := rfl
@[simp] theorem State.setInitState_txSeq (v : Byte) : (s.setInitState v).regs.txSeq = s.regs.txSeq := rfl
@[simp] theorem State.setInitState_lastSeq (v : Byte) : (s.setInitState v).regs.lastSeq = s.regs.lastSeq := rfl
@[simp] theorem State.setInitState_missedMsg (v : Byte) : (s.setInitState v).regs.missedMsg = s.regs.missedMsg := rfl
@[simp] theorem State.setInitState_irqCount (v : Byte) : (s.setInitState v).regs.irqCount = s.regs.irqCount := rfl
@[simp] theorem State.setInitState_missedIrq (v : Byte) : (s.setInitState v).regs.missedIrq = s.regs.missedIrq := rfl
@[simp] theorem State.setInitState_initState (v : Byte) : (s.setInitState v).regs.initState = v := rfl
@[simp] theorem State.setInitState_curValues (v : Byte) : (s.setInitState v).regs.curValues = s.regs.curValues := rfl
@[simp] theorem State.setInitState_cmdPort (v : Byte) : (s.setInitState v).cmdPort = s.cmdPort := rfl
@[simp] theorem State.setInitState_rspPort (v : Byte) : (s.setInitState v).rspPort = s.rspPort := rfl
@[simp] theorem State.setInitState_params (v : Byte) : (s.setInitState v).params = s.params := rfl

/-! ### After `curValues <- v` -/

@[simp] theorem State.setCurValues_crcAcc (v : ChannelFrame) : (s.setCurValues v).regs.crcAcc = s.regs.crcAcc := rfl
@[simp] theorem State.setCurValues_txSeq (v : ChannelFrame) : (s.setCurValues v).regs.txSeq = s.regs.txSeq := rfl
@[simp] theorem State.setCurValues_lastSeq (v : ChannelFrame) : (s.setCurValues v).regs.lastSeq = s.regs.lastSeq := rfl
@[simp] theorem State.setCurValues_missedMsg (v : ChannelFrame) : (s.setCurValues v).regs.missedMsg = s.regs.missedMsg := rfl
@[simp] theorem State.setCurValues_irqCount (v : ChannelFrame) : (s.setCurValues v).regs.irqCount = s.regs.irqCount := rfl
@[simp] theorem State.setCurValues_missedIrq (v : ChannelFrame) : (s.setCurValues v).regs.missedIrq = s.regs.missedIrq := rfl
@[simp] theorem State.setCurValues_initState (v : ChannelFrame) : (s.setCurValues v).regs.initState = s.regs.initState := rfl
@[simp] theorem State.setCurValues_curValues (v : ChannelFrame) : (s.setCurValues v).regs.curValues = v := rfl
@[simp] theorem State.setCurValues_cmdPort (v : ChannelFrame) : (s.setCurValues v).cmdPort = s.cmdPort := rfl
@[simp] theorem State.setCurValues_rspPort (v : ChannelFrame) : (s.setCurValues v).rspPort = s.rspPort := rfl
@[simp] theorem State.setCurValues_params (v : ChannelFrame) : (s.setCurValues v).params = s.params := rfl

/-! ### After a response, and with other bytes on the command port -/

@[simp] theorem State.respond_regs (r : Response) : (s.respond r).regs = s.regs := rfl
@[simp] theorem State.respond_cmdPort (r : Response) : (s.respond r).cmdPort = s.cmdPort := rfl
@[simp] theorem State.respond_params (r : Response) : (s.respond r).params = s.params := rfl
@[simp] theorem State.respond_rspPort (r : Response) : (s.respond r).rspPort = s.rspPort ++ [r] := rfl
@[simp] theorem State.setCmdPort_regs (p : List Byte) : (s.setCmdPort p).regs = s.regs := rfl
@[simp] theorem State.setCmdPort_rspPort (p : List Byte) : (s.setCmdPort p).rspPort = s.rspPort := rfl
@[simp] theorem State.setCmdPort_params (p : List Byte) : (s.setCmdPort p).params = s.params := rfl
@[simp] theorem State.setCmdPort_cmdPort (p : List Byte) : (s.setCmdPort p).cmdPort = p := rfl
@[simp] theorem State.setCmdPort_self : s.setCmdPort s.cmdPort = s := rfl

/-! ### Writes commute with a response and with the command port -/

theorem State.setCrcAcc_setCmdPort (v : Half) (p : List Byte) :
    (s.setCmdPort p).setCrcAcc v = (s.setCrcAcc v).setCmdPort p := rfl
theorem State.setTxSeq_setCmdPort (v : Word) (p : List Byte) :
    (s.setCmdPort p).setTxSeq v = (s.setTxSeq v).setCmdPort p := rfl
theorem State.setLastSeq_setCmdPort (v : Word) (p : List Byte) :
    (s.setCmdPort p).setLastSeq v = (s.setLastSeq v).setCmdPort p := rfl
theorem State.setMissedMsg_setCmdPort (v : Word) (p : List Byte) :
    (s.setCmdPort p).setMissedMsg v = (s.setMissedMsg v).setCmdPort p := rfl
theorem State.setIrqCount_setCmdPort (v : Word) (p : List Byte) :
    (s.setCmdPort p).setIrqCount v = (s.setIrqCount v).setCmdPort p := rfl
theorem State.setMissedIrq_setCmdPort (v : Word) (p : List Byte) :
    (s.setCmdPort p).setMissedIrq v = (s.setMissedIrq v).setCmdPort p := rfl
theorem State.setInitState_setCmdPort (v : Byte) (p : List Byte) :
    (s.setCmdPort p).setInitState v = (s.setInitState v).setCmdPort p := rfl
theorem State.setCurValues_setCmdPort (v : ChannelFrame) (p : List Byte) :
    (s.setCmdPort p).setCurValues v = (s.setCurValues v).setCmdPort p := rfl
theorem State.respond_setCmdPort (r : Response) (p : List Byte) :
    (s.setCmdPort p).respond r = (s.respond r).setCmdPort p := rfl
@[simp] theorem State.setCmdPort_setCmdPort (p q : List Byte) : (s.setCmdPort p).setCmdPort q = s.setCmdPort q := rfl

end Sys2Proof.Machine
end

