-- ==== Sys2Proof/Laws/Ops.lean ====
section
/-! SUPPORT. What each shared operation can do, said once: narrowing, checked responses, the CRC fold, the scaling and
the frame body, the envelope's length. -/

namespace Sys2Proof.Machine

/-! ### Narrowing (00_scope.md R4) -/

theorem narrow_of_lt {w n : Nat} (h : n < 2 ^ w) : narrow w n = some (BitVec.ofNat w n) := if_pos h

theorem narrow_eq_some {w n : Nat} {v : BitVec w} : narrow w n = some v ↔ v.toNat = n := by
  unfold narrow
  split
  · next h =>
    simp only [Option.some.injEq]
    constructor
    · rintro rfl; simpa using Nat.mod_eq_of_lt h
    · rintro rfl; simp
  · next h =>
    simp only [reduceCtorEq, false_iff]
    rintro rfl
    exact h v.isLt

theorem lengthPrefixed_of_lt {bytes : List Byte} (h : bytes.length < 256) :
    lengthPrefixed bytes = some (BitVec.ofNat 8 bytes.length :: bytes) := by
  simp [lengthPrefixed, narrow_of_lt (w := 8) h]

@[simp] theorem respondChecked_some (bytes : List Byte) (s : State) :
    respondChecked (some bytes) s = .next (s.respond (.ok bytes)) := rfl

/-! ### The CRC fold (40_crc.md R100, R101) -/

theorem foldl_feedCrc (bytes : List Byte) (s : State) :
    bytes.foldl State.feedCrc s = s.setCrcAcc (bytes.foldl crcStep s.regs.crcAcc) := by
  induction bytes generalizing s with
  | nil => rfl
  | cons b bs ih => rw [List.foldl_cons, ih]; rfl

/-- Fed from the reset accumulator, the engine ends at `crc16`. -/
theorem foldl_feedCrc_init (bytes : List Byte) (s : State) :
    bytes.foldl State.feedCrc (s.setCrcAcc Config.crcInit) = s.setCrcAcc (crc16 bytes) := by
  rw [foldl_feedCrc]; rfl

/-! ### The envelope (41_envelope.md R123) -/

@[simp] theorem length_envelopeEncode (e : Envelope) : (envelopeEncode e).length = 13 := by
  cases e with | mk seq body => cases body; rfl

/-- The encoders never overflow: they answer the thirteen bytes after their length. -/
theorem respondEnvelope_eq (e : Envelope) (written s : State) :
    respondEnvelope (envelopeEncode e) written s =
      .next (written.respond (.ok (0x0D#8 :: envelopeEncode e))) := by
  have h := length_envelopeEncode e
  rw [respondEnvelope, if_neg (by rw [h]; decide), lengthPrefixed_of_lt (by omega), h]
  rfl

/-! ### Scaling and the frame (42_frame.md R150, R152) -/

theorem admissible_iff (p : Params) :
    admissible p = true ↔ 0 < p.scaleDiv ∧ 65535 / p.scaleDiv + p.scaleOffset ≤ 0xFFFF := by
  simp [admissible]

/-- Admissible parameters scale every raw value into 16 bits. -/
theorem scaled_lt {p : Params} (h : admissible p = true) (raw : Half) :
    raw.toNat / p.scaleDiv + p.scaleOffset < 2 ^ 16 := by
  have := (admissible_iff p).1 h
  have : raw.toNat / p.scaleDiv ≤ 65535 / p.scaleDiv := Nat.div_le_div_right (by have := raw.isLt; omega)
  omega

theorem scaled_of_admissible {p : Params} (h : admissible p = true) (raw : Half) :
    scaled p raw = some (BitVec.ofNat 16 (raw.toNat / p.scaleDiv + p.scaleOffset)) :=
  narrow_of_lt (scaled_lt h raw)

theorem scaledBytes_of_admissible {p : Params} (h : admissible p = true) (vals : List Half) :
    scaledBytes p vals =
      some (vals.flatMap fun raw => be16 (BitVec.ofNat 16 (raw.toNat / p.scaleDiv + p.scaleOffset))) := by
  induction vals with
  | nil => rfl
  | cons v vs ih => simp [scaledBytes, scaled_of_admissible h, ih]

theorem frameBody_of_admissible {p : Params} (h : admissible p = true) (st : Byte) (vals : List Half)
    (hn : vals.length < 256) :
    frameBody p st vals = some (p.syncByte :: st :: BitVec.ofNat 8 vals.length ::
      vals.flatMap fun raw => be16 (BitVec.ofNat 16 (raw.toNat / p.scaleDiv + p.scaleOffset))) := by
  simp [frameBody, narrow_of_lt (w := 8) hn, scaledBytes_of_admissible h]

/-- A body of at most 253 bytes is answered as a frame, and the accumulator ends at its CRC. -/
theorem emitFrame_eq (body : List Byte) (s : State) (h : body.length < 254) :
    emitFrame body s =
      .next ((s.setCrcAcc (crc16 body)).respond
        (.ok (BitVec.ofNat 8 (body.length + 2) :: (body ++ be16 (crc16 body))))) := by
  have hl : (body ++ be16 (crc16 body)).length < 256 := by simp; omega
  have he := foldl_feedCrc_init body s
  simp only [emitFrame, he, State.setCrcAcc_crcAcc, lengthPrefixed_of_lt hl, respondChecked_some]
  simp

/-! ### The decoder of envelopes (41_envelope.md R127) -/

/-- At least thirteen bytes are thirteen bytes and a rest. -/
theorem exists_thirteen {buf : List Byte} (h : 13 ≤ buf.length) :
    ∃ s0 s1 s2 s3 d a0 a1 b0 b1 c0 c1 d0 d1 pad,
      buf = s0 :: s1 :: s2 :: s3 :: d :: a0 :: a1 :: b0 :: b1 :: c0 :: c1 :: d0 :: d1 :: pad := by
  rcases buf with _ | ⟨s0, _ | ⟨s1, _ | ⟨s2, _ | ⟨s3, _ | ⟨d, _ | ⟨a0, _ | ⟨a1, _ | ⟨b0, _ | ⟨b1, _ | ⟨c0, _ |
    ⟨c1, _ | ⟨d0, _ | ⟨d1, pad⟩⟩⟩⟩⟩⟩⟩⟩⟩⟩⟩⟩⟩
  case cons.cons.cons.cons.cons.cons.cons.cons.cons.cons.cons.cons.cons =>
    exact ⟨s0, s1, s2, s3, d, a0, a1, b0, b1, c0, c1, d0, d1, pad, rfl⟩
  all_goals (simp at h)

theorem envelopeDecode_of_long {buf : List Byte} (h : 32 < buf.length) : envelopeDecode buf = .fail .oversize :=
  if_pos h

theorem envelopeDecode_of_short {buf : List Byte} (h : buf.length < 13) : envelopeDecode buf = .fail .truncated := by
  rw [envelopeDecode, Config.envBufMax, if_neg (by omega)]
  rintro s0 s1 s2 s3 d a0 a1 b0 b1 c0 c1 d0 d1 pad rfl
  simp at h
  omega

theorem envelopeDecode_of_discriminant (s0 s1 s2 s3 d a0 a1 b0 b1 c0 c1 d0 d1 : Byte) (pad : List Byte)
    (hp : pad.length ≤ 19) (hd : d ≠ 0x00#8) :
    envelopeDecode (s0 :: s1 :: s2 :: s3 :: d :: a0 :: a1 :: b0 :: b1 :: c0 :: c1 :: d0 :: d1 :: pad) =
      .fail .unknownDiscriminant := by
  rw [envelopeDecode, Config.envBufMax, if_neg (by simp; omega)]
  exact if_pos hd

theorem envelopeDecode_of_bytes (s0 s1 s2 s3 a0 a1 b0 b1 c0 c1 d0 d1 : Byte) (pad : List Byte)
    (hp : pad.length ≤ 19) :
    envelopeDecode (s0 :: s1 :: s2 :: s3 :: 0x00#8 :: a0 :: a1 :: b0 :: b1 :: c0 :: c1 :: d0 :: d1 :: pad) =
      .envelope ⟨word s3 s2 s1 s0, .channelValues ⟨half a1 a0, half b1 b0, half c1 c0, half d1 d0⟩⟩ := by
  rw [envelopeDecode, Config.envBufMax, if_neg (by simp; omega)]
  exact if_neg (by decide)

/-- Every outcome of `env_decode`, by the length and the discriminant. -/
theorem envelopeDecode_cases (buf : List Byte) :
    (32 < buf.length ∧ envelopeDecode buf = .fail .oversize) ∨
    (buf.length < 13 ∧ envelopeDecode buf = .fail .truncated) ∨
    (13 ≤ buf.length ∧ buf.length ≤ 32 ∧ buf[4]? ≠ some 0x00#8 ∧
      envelopeDecode buf = .fail .unknownDiscriminant) ∨
    (∃ s0 s1 s2 s3 a0 a1 b0 b1 c0 c1 d0 d1 pad,
      buf = s0 :: s1 :: s2 :: s3 :: 0x00#8 :: a0 :: a1 :: b0 :: b1 :: c0 :: c1 :: d0 :: d1 :: pad ∧
      pad.length ≤ 19 ∧
      envelopeDecode buf =
        .envelope ⟨word s3 s2 s1 s0, .channelValues ⟨half a1 a0, half b1 b0, half c1 c0, half d1 d0⟩⟩) := by
  by_cases hlong : 32 < buf.length
  · exact .inl ⟨hlong, envelopeDecode_of_long hlong⟩
  by_cases hshort : buf.length < 13
  · exact .inr (.inl ⟨hshort, envelopeDecode_of_short hshort⟩)
  obtain ⟨s0, s1, s2, s3, d, a0, a1, b0, b1, c0, c1, d0, d1, pad, rfl⟩ := exists_thirteen (Nat.not_lt.1 hshort)
  simp only [List.length_cons] at hlong hshort
  have hp : pad.length ≤ 19 := by omega
  by_cases hd : d = 0x00#8
  · subst hd
    exact .inr (.inr (.inr ⟨s0, s1, s2, s3, a0, a1, b0, b1, c0, c1, d0, d1, pad, rfl, hp,
      envelopeDecode_of_bytes s0 s1 s2 s3 a0 a1 b0 b1 c0 c1 d0 d1 pad hp⟩))
  · exact .inr (.inr (.inl ⟨by simp only [List.length_cons]; omega, by simp only [List.length_cons]; omega,
      by simpa using hd,
      envelopeDecode_of_discriminant s0 s1 s2 s3 d a0 a1 b0 b1 c0 c1 d0 d1 pad hp hd⟩))

/-- What the encoder wrote decodes, also with up to 19 bytes of padding. -/
theorem envelopeDecode_envelopeEncode (e : Envelope) (pad : List Byte) (h : pad.length ≤ 19) :
    envelopeDecode (envelopeEncode e ++ pad) = .envelope e := by
  obtain ⟨seq, ⟨v0, v1, v2, v3⟩⟩ := e
  have := envelopeDecode_of_bytes (seq.extractLsb' 0 8) (seq.extractLsb' 8 8) (seq.extractLsb' 16 8)
    (seq.extractLsb' 24 8) (v0.extractLsb' 0 8) (v0.extractLsb' 8 8) (v1.extractLsb' 0 8) (v1.extractLsb' 8 8)
    (v2.extractLsb' 0 8) (v2.extractLsb' 8 8) (v3.extractLsb' 0 8) (v3.extractLsb' 8 8) pad h
  rwa [word_of_bytes, half_of_bytes, half_of_bytes, half_of_bytes, half_of_bytes] at this

/-- The encoder writes back the first thirteen bytes of what decodes. -/
theorem envelopeEncode_of_bytes (s0 s1 s2 s3 a0 a1 b0 b1 c0 c1 d0 d1 : Byte) :
    envelopeEncode ⟨word s3 s2 s1 s0, .channelValues ⟨half a1 a0, half b1 b0, half c1 c0, half d1 d0⟩⟩ =
      [s0, s1, s2, s3, 0x00#8, a0, a1, b0, b1, c0, c1, d0, d1] := by
  simp [envelopeEncode, Body.payload, Body.discriminant, Config.envDiscChannelValues]

end Sys2Proof.Machine
end

