-- ==== Sys2Proof/Laws/Exec.lean ====
section
/-! SUPPORT. Each meaning in closed form, and the one inversion lemma of `exec`: every way a command can end. Later proofs
cite these and unfold no meaning. -/

namespace Sys2Proof.Machine

variable (s : State)

/-- A command's next state: these registers, one response more, everything else as before. -/
def State.answered (s : State) (r : Response) (regs : Registers) : State :=
  { s with regs := regs, rspPort := s.rspPort ++ [r] }

@[simp] theorem State.answered_regs (r : Response) (regs : Registers) : (s.answered r regs).regs = regs := rfl
@[simp] theorem State.answered_cmdPort (r : Response) (regs : Registers) :
    (s.answered r regs).cmdPort = s.cmdPort := rfl
@[simp] theorem State.answered_rspPort (r : Response) (regs : Registers) :
    (s.answered r regs).rspPort = s.rspPort ++ [r] := rfl
@[simp] theorem State.answered_params (r : Response) (regs : Registers) :
    (s.answered r regs).params = s.params := rfl

theorem State.answered_setCmdPort (r : Response) (regs : Registers) (p : List Byte) :
    (s.setCmdPort p).answered r regs = (s.answered r regs).setCmdPort p := rfl

/-! ### Errors -/

theorem raise_eq (e : CommandError) : raise e s = .next (s.answered (.error e) s.regs) := rfl

theorem illegalCommand_eq : illegalCommand s = .next (s.answered (.error .illegalCommand) s.regs) := rfl

/-! ### CRC engine -/

theorem exec_crcReset : exec .crcReset s = .next (s.answered (.ok []) { s.regs with crcAcc := 0x0000#16 }) := rfl

theorem exec_crcUpdate (b : Byte) :
    exec (.crcUpdate b) s = .next (s.answered (.ok []) { s.regs with crcAcc := crcStep s.regs.crcAcc b }) := rfl

theorem exec_crcRead : exec .crcRead s = .next (s.answered (.ok (be16 s.regs.crcAcc)) s.regs) := rfl

/-! ### Envelope codec -/

theorem exec_envEncode (seq : Word) (f : ChannelFrame) :
    exec (.envEncode seq f) s =
      .next (s.answered (.ok (0x0D#8 :: envelopeEncode ⟨seq, .channelValues f⟩)) s.regs) :=
  respondEnvelope_eq _ s s

theorem exec_envEncodeNext (f : ChannelFrame) :
    exec (.envEncodeNext f) s =
      .next (s.answered (.ok (0x0D#8 :: envelopeEncode ⟨s.regs.txSeq, .channelValues f⟩))
        { s.regs with txSeq := s.regs.txSeq + 1 }) :=
  respondEnvelope_eq _ (s.setTxSeq (s.regs.txSeq + 1)) s

theorem exec_envDecode_fail {buf : List Byte} {reason : DecodeReason} (h : envelopeDecode buf = .fail reason) :
    exec (.envDecode buf) s = .next (s.answered (.error (.decodeError reason)) s.regs) := by
  simp only [exec, execEnvDecode, h, raise_eq]

theorem exec_envDecode_ok {buf : List Byte} {e : Envelope} (h : envelopeDecode buf = .envelope e) :
    exec (.envDecode buf) s = .next (s.answered (.ok (decodedPayload e)) s.regs) := by
  simp only [exec, execEnvDecode, h]; rfl

/-! ### Frame encoder -/

/-- The frame body under admissible parameters (42_frame.md R152). -/
def plainBody (p : Params) (st : Byte) (vals : List Half) : List Byte :=
  p.syncByte :: st :: BitVec.ofNat 8 vals.length ::
    vals.flatMap fun raw => be16 (BitVec.ofNat 16 (raw.toNat / p.scaleDiv + p.scaleOffset))

theorem length_plainBody (p : Params) (st : Byte) (vals : List Half) :
    (plainBody p st vals).length = 3 + 2 * vals.length := by
  have : ∀ l : List Half,
      (l.flatMap fun raw => be16 (BitVec.ofNat 16 (raw.toNat / p.scaleDiv + p.scaleOffset))).length = 2 * l.length := by
    intro l
    induction l with
    | nil => rfl
    | cons v vs ih => simp only [List.flatMap_cons, List.length_append, ih, length_be16, List.length_cons]; omega
  simp only [plainBody, List.length_cons, this]
  omega

theorem exec_scale (h : admissible s.params = true) (raw : Half) :
    exec (.scale raw) s =
      .next (s.answered (.ok (be16 (BitVec.ofNat 16 (raw.toNat / s.params.scaleDiv + s.params.scaleOffset)))) s.regs) := by
  simp only [exec, execScale, withParams, if_pos h, scaled_of_admissible h, Option.map_some, respondChecked_some]
  rfl

theorem exec_scale_refused (h : admissible s.params = false) (raw : Half) :
    exec (.scale raw) s = .refused .inadmissibleParameters := by
  simp [exec, execScale, withParams, h]

theorem legalFrameStatus_iff (st : Byte) : legalFrameStatus st = true ↔ st = 0x01#8 ∨ st = 0x81#8 := by
  simp [legalFrameStatus, Config.statusLive, Config.statusFailSafe]

theorem buildFrame_illegal {st : Byte} (h : legalFrameStatus st = false) (vals : List Half) :
    buildFrame st vals s = .next (s.answered (.error .illegalOperand) s.regs) := by
  simp [buildFrame, h, raise_eq]

theorem buildFrame_tooLarge {st : Byte} (h : legalFrameStatus st = true) {vals : List Half} (hn : 32 < vals.length) :
    buildFrame st vals s = .next (s.answered (.error .frameTooLarge) s.regs) := by
  simp [buildFrame, h, Config.frameMaxChannels, hn, raise_eq]

theorem buildFrame_refused {st : Byte} (h : legalFrameStatus st = true) {vals : List Half} (hn : vals.length ≤ 32)
    (hp : admissible s.params = false) : buildFrame st vals s = .refused .inadmissibleParameters := by
  simp [buildFrame, h, Config.frameMaxChannels, Nat.not_lt.2 hn, withParams, hp]

theorem buildFrame_ok {st : Byte} (h : legalFrameStatus st = true) {vals : List Half} (hn : vals.length ≤ 32)
    (hp : admissible s.params = true) :
    buildFrame st vals s =
      .next (s.answered
        (.ok (BitVec.ofNat 8 (5 + 2 * vals.length) ::
          (plainBody s.params st vals ++ be16 (crc16 (plainBody s.params st vals)))))
        { s.regs with crcAcc := crc16 (plainBody s.params st vals) }) := by
  have hl := length_plainBody s.params st vals
  have hb : frameBody s.params st vals = some (plainBody s.params st vals) :=
    frameBody_of_admissible hp st vals (by omega)
  have he := emitFrame_eq (plainBody s.params st vals) s (by omega)
  rw [hl, show 3 + 2 * vals.length + 2 = 5 + 2 * vals.length by omega] at he
  simp only [buildFrame, h, Bool.not_true, Bool.false_eq_true, if_false, Config.frameMaxChannels,
    if_neg (Nat.not_lt.2 hn), withParams, hp, if_true, hb, he]
  rfl

theorem exec_frameFromStatus :
    exec .frameFromStatus s = exec (.frameEncode 0x01#8 (channelList s.regs.curValues)) s := rfl

/-! ### Link status -/

theorem exec_process_fail {buf : List Byte} {reason : DecodeReason} (h : envelopeDecode buf = .fail reason) :
    exec (.process buf) s = .next (s.answered (.error (.decodeError reason)) s.regs) := by
  simp only [exec, execProcess, h, raise_eq]

/-- What an envelope does to the registers (43_link_status.md R181, R182). -/
def Registers.received (r : Registers) (seq : Word) (f : ChannelFrame) : Registers :=
  { r with
    missedMsg := if r.lastSeq < seq then r.missedMsg + (seq - r.lastSeq - 1) else r.missedMsg
    lastSeq := seq
    curValues := f }

theorem exec_process_ok {buf : List Byte} {seq : Word} {f : ChannelFrame}
    (h : envelopeDecode buf = .envelope ⟨seq, .channelValues f⟩) :
    exec (.process buf) s = .next (s.answered (.ok []) (s.regs.received seq f)) := by
  simp only [exec, execProcess, h]; rfl

theorem exec_radioIrq_spawned :
    exec (.radioIrq 0x01#8) s = .next (s.answered (.ok []) { s.regs with irqCount := s.regs.irqCount + 1 }) := rfl

theorem exec_radioIrq_queueFull :
    exec (.radioIrq 0x00#8) s =
      .next (s.answered (.ok [])
        { s.regs with irqCount := s.regs.irqCount + 1, missedIrq := s.regs.missedIrq + 1 }) := rfl

theorem exec_radioIrq_illegal {flag : Byte} (h0 : flag ≠ 0x00#8) (h1 : flag ≠ 0x01#8) :
    exec (.radioIrq flag) s = .next (s.answered (.error .illegalOperand) s.regs) := by
  have h : legalIrqFlag flag = false := by simp [legalIrqFlag, flagQueueFull, flagSpawned, h0, h1]
  simp [exec, execRadioIrq, h, raise_eq]

theorem exec_setInitState (v : Byte) :
    exec (.setInitState v) s = .next (s.answered (.ok []) { s.regs with initState := v }) := rfl

/-! ### Register access -/

theorem exec_regRead_ok {index : Byte} {r : RegName} (h : regOfIndex index = some r) :
    exec (.regRead index) s = .next (s.answered (.ok (be32 (s.regs.read r))) s.regs) := by
  simp only [exec, execRegRead, h]; rfl

theorem exec_regRead_reserved {index : Byte} (h : regOfIndex index = none) :
    exec (.regRead index) s = .next (s.answered (.error .illegalOperand) s.regs) := by
  simp only [exec, execRegRead, h, raise_eq]

/-! ### Every way a command can end -/

/-- The inversion lemma of `exec`: the command and what it answers with which registers, or the refusal of inadmissible
parameters. -/
inductive Ends (s : State) : Instr → Result → Prop where
  | crcReset : Ends s .crcReset (.next (s.answered (.ok []) { s.regs with crcAcc := 0x0000#16 }))
  | crcUpdate (b : Byte) :
      Ends s (.crcUpdate b) (.next (s.answered (.ok []) { s.regs with crcAcc := crcStep s.regs.crcAcc b }))
  | crcRead : Ends s .crcRead (.next (s.answered (.ok (be16 s.regs.crcAcc)) s.regs))
  | envEncode (seq : Word) (f : ChannelFrame) :
      Ends s (.envEncode seq f)
        (.next (s.answered (.ok (0x0D#8 :: envelopeEncode ⟨seq, .channelValues f⟩)) s.regs))
  | envEncodeNext (f : ChannelFrame) :
      Ends s (.envEncodeNext f)
        (.next (s.answered (.ok (0x0D#8 :: envelopeEncode ⟨s.regs.txSeq, .channelValues f⟩))
          { s.regs with txSeq := s.regs.txSeq + 1 }))
  | envDecodeOk (buf : List Byte) (e : Envelope) (h : envelopeDecode buf = .envelope e) :
      Ends s (.envDecode buf) (.next (s.answered (.ok (decodedPayload e)) s.regs))
  | envDecodeFail (buf : List Byte) (reason : DecodeReason) (h : envelopeDecode buf = .fail reason) :
      Ends s (.envDecode buf) (.next (s.answered (.error (.decodeError reason)) s.regs))
  | scaleOk (raw : Half) (hp : admissible s.params = true) :
      Ends s (.scale raw)
        (.next (s.answered
          (.ok (be16 (BitVec.ofNat 16 (raw.toNat / s.params.scaleDiv + s.params.scaleOffset)))) s.regs))
  | scaleRefused (raw : Half) (hp : admissible s.params = false) :
      Ends s (.scale raw) (.refused .inadmissibleParameters)
  | frameIllegal (st : Byte) (vals : List Half) (h : legalFrameStatus st = false) :
      Ends s (.frameEncode st vals) (.next (s.answered (.error .illegalOperand) s.regs))
  | frameTooLarge (st : Byte) (vals : List Half) (h : legalFrameStatus st = true) (hn : 32 < vals.length) :
      Ends s (.frameEncode st vals) (.next (s.answered (.error .frameTooLarge) s.regs))
  | frameOk (st : Byte) (vals : List Half) (h : legalFrameStatus st = true) (hn : vals.length ≤ 32)
      (hp : admissible s.params = true) :
      Ends s (.frameEncode st vals)
        (.next (s.answered
          (.ok (BitVec.ofNat 8 (5 + 2 * vals.length) ::
            (plainBody s.params st vals ++ be16 (crc16 (plainBody s.params st vals)))))
          { s.regs with crcAcc := crc16 (plainBody s.params st vals) }))
  | frameRefused (st : Byte) (vals : List Half) (h : legalFrameStatus st = true) (hn : vals.length ≤ 32)
      (hp : admissible s.params = false) : Ends s (.frameEncode st vals) (.refused .inadmissibleParameters)
  | statusOk (hp : admissible s.params = true) :
      Ends s .frameFromStatus
        (.next (s.answered
          (.ok (BitVec.ofNat 8 13 ::
            (plainBody s.params 0x01#8 (channelList s.regs.curValues) ++
              be16 (crc16 (plainBody s.params 0x01#8 (channelList s.regs.curValues))))))
          { s.regs with crcAcc := crc16 (plainBody s.params 0x01#8 (channelList s.regs.curValues)) }))
  | statusRefused (hp : admissible s.params = false) :
      Ends s .frameFromStatus (.refused .inadmissibleParameters)
  | processOk (buf : List Byte) (seq : Word) (f : ChannelFrame)
      (h : envelopeDecode buf = .envelope ⟨seq, .channelValues f⟩) :
      Ends s (.process buf) (.next (s.answered (.ok []) (s.regs.received seq f)))
  | processFail (buf : List Byte) (reason : DecodeReason) (h : envelopeDecode buf = .fail reason) :
      Ends s (.process buf) (.next (s.answered (.error (.decodeError reason)) s.regs))
  | irqSpawned :
      Ends s (.radioIrq 0x01#8) (.next (s.answered (.ok []) { s.regs with irqCount := s.regs.irqCount + 1 }))
  | irqQueueFull :
      Ends s (.radioIrq 0x00#8)
        (.next (s.answered (.ok [])
          { s.regs with irqCount := s.regs.irqCount + 1, missedIrq := s.regs.missedIrq + 1 }))
  | irqIllegal (flag : Byte) (h0 : flag ≠ 0x00#8) (h1 : flag ≠ 0x01#8) :
      Ends s (.radioIrq flag) (.next (s.answered (.error .illegalOperand) s.regs))
  | setInitState (v : Byte) :
      Ends s (.setInitState v) (.next (s.answered (.ok []) { s.regs with initState := v }))
  | regReadOk (index : Byte) (r : RegName) (h : regOfIndex index = some r) :
      Ends s (.regRead index) (.next (s.answered (.ok (be32 (s.regs.read r))) s.regs))
  | regReadReserved (index : Byte) (h : regOfIndex index = none) :
      Ends s (.regRead index) (.next (s.answered (.error .illegalOperand) s.regs))

theorem exec_ends (i : Instr) : Ends s i (exec i s) := by
  cases i with
  | crcReset => exact .crcReset
  | crcUpdate b => exact .crcUpdate b
  | crcRead => exact .crcRead
  | envEncode seq f => rw [exec_envEncode]; exact .envEncode seq f
  | envEncodeNext f => rw [exec_envEncodeNext]; exact .envEncodeNext f
  | envDecode buf =>
    cases h : envelopeDecode buf with
    | envelope e => rw [exec_envDecode_ok s h]; exact .envDecodeOk buf e h
    | fail r => rw [exec_envDecode_fail s h]; exact .envDecodeFail buf r h
  | scale raw =>
    cases hp : admissible s.params with
    | true => rw [exec_scale s hp]; exact .scaleOk raw hp
    | false => rw [exec_scale_refused s hp]; exact .scaleRefused raw hp
  | frameEncode st vals =>
    change Ends s _ (buildFrame st vals s)
    cases h : legalFrameStatus st with
    | false => rw [buildFrame_illegal s h]; exact .frameIllegal st vals h
    | true =>
      by_cases hn : 32 < vals.length
      · rw [buildFrame_tooLarge s h hn]; exact .frameTooLarge st vals h hn
      · have hn := Nat.not_lt.1 hn
        cases hp : admissible s.params with
        | true => rw [buildFrame_ok s h hn hp]; exact .frameOk st vals h hn hp
        | false => rw [buildFrame_refused s h hn hp]; exact .frameRefused st vals h hn hp
  | frameFromStatus =>
    change Ends s _ (buildFrame 0x01#8 (channelList s.regs.curValues) s)
    cases hp : admissible s.params with
    | true =>
      have := buildFrame_ok s (st := 0x01#8) rfl (vals := channelList s.regs.curValues) (by simp [channelList]) hp
      rw [this]; exact .statusOk hp
    | false =>
      rw [buildFrame_refused s (st := 0x01#8) rfl (by simp [channelList]) hp]; exact .statusRefused hp
  | process buf =>
    cases h : envelopeDecode buf with
    | envelope e =>
      obtain ⟨seq, ⟨f⟩⟩ := e
      rw [exec_process_ok s h]; exact .processOk buf seq f h
    | fail r => rw [exec_process_fail s h]; exact .processFail buf r h
  | radioIrq flag =>
    by_cases h0 : flag = 0x00#8
    · subst h0; exact .irqQueueFull
    · by_cases h1 : flag = 0x01#8
      · subst h1; exact .irqSpawned
      · rw [exec_radioIrq_illegal s h0 h1]; exact .irqIllegal flag h0 h1
  | setInitState v => exact .setInitState v
  | regRead index =>
    cases h : regOfIndex index with
    | none => rw [exec_regRead_reserved s h]; exact .regReadReserved index h
    | some r => rw [exec_regRead_ok s h]; exact .regReadOk index r h

/-- Use of the inversion lemma: split a run of a command into its cases. -/
theorem exec_inv {i : Instr} {s : State} {o : Result} (h : exec i s = o) : Ends s i o := h ▸ exec_ends s i

/-! ### The command port does not matter to a command -/

/-- The same outcome with other bytes on the command port. -/
def withPort (p : List Byte) : Result → Result
  | .next t => .next (t.setCmdPort p)
  | .fault r => .fault r
  | .refused r => .refused r

theorem exec_setCmdPort (i : Instr) (s : State) (p : List Byte) :
    exec i (s.setCmdPort p) = withPort p (exec i s) := by
  have h := exec_ends s i
  generalize exec i s = o at h
  cases h with
  | crcReset | crcUpdate b | crcRead | irqSpawned | irqQueueFull | setInitState v => rfl
  | envEncode seq f => rw [exec_envEncode]; rfl
  | envEncodeNext f => rw [exec_envEncodeNext]; rfl
  | envDecodeOk buf e h => rw [exec_envDecode_ok _ h]; rfl
  | envDecodeFail buf r h => rw [exec_envDecode_fail _ h]; rfl
  | scaleOk raw hp => exact exec_scale (s.setCmdPort p) hp raw
  | scaleRefused raw hp => exact exec_scale_refused (s.setCmdPort p) hp raw
  | frameIllegal st vals h => exact buildFrame_illegal _ h vals
  | frameTooLarge st vals h hn => exact buildFrame_tooLarge _ h hn
  | frameOk st vals h hn hp => exact buildFrame_ok (s.setCmdPort p) h hn hp
  | frameRefused st vals h hn hp => exact buildFrame_refused (s.setCmdPort p) h hn hp
  | statusOk hp =>
    exact buildFrame_ok (s.setCmdPort p) (st := 0x01#8) rfl (vals := channelList s.regs.curValues)
      (by simp [channelList]) hp
  | statusRefused hp =>
    exact buildFrame_refused (s.setCmdPort p) (st := 0x01#8) rfl (vals := channelList s.regs.curValues)
      (by simp [channelList]) hp
  | processOk buf seq f h => rw [exec_process_ok _ h]; rfl
  | processFail buf r h => rw [exec_process_fail _ h]; rfl
  | irqIllegal flag h0 h1 => rw [exec_radioIrq_illegal _ h0 h1]; rfl
  | regReadOk index r h => rw [exec_regRead_ok _ h]; rfl
  | regReadReserved index h => rw [exec_regRead_reserved _ h]; rfl

/-! ### Sequences of commands -/

@[simp] theorem runCommands_nil : runCommands [] s = .next s := rfl

theorem runCommands_cons_next {i : Instr} {rest : List Instr} {s t : State} (h : exec i s = .next t) :
    runCommands (i :: rest) s = runCommands rest t := by
  simp [runCommands, h]

/-- A sequence that completes: its first command completes, and so do the others from there. -/
theorem runCommands_cons_eq_next {i : Instr} {rest : List Instr} {s u : State} :
    runCommands (i :: rest) s = .next u ↔ ∃ t, exec i s = .next t ∧ runCommands rest t = .next u := by
  constructor
  · intro h
    unfold runCommands at h
    split at h
    · next t ht => exact ⟨t, ht, h⟩
    · cases h
    · cases h
  · rintro ⟨t, ht, h⟩; rw [runCommands_cons_next ht, h]

theorem runCommands_append_next {is js : List Instr} {s t : State} (h : runCommands is s = .next t) :
    runCommands (is ++ js) s = runCommands js t := by
  induction is generalizing s with
  | nil => cases h; rfl
  | cons i is ih =>
    obtain ⟨u, hu, h⟩ := runCommands_cons_eq_next.1 h
    rw [List.cons_append, runCommands_cons_next hu, ih h]

end Sys2Proof.Machine
end

