-- ==== Sys2Proof/Laws/PerInstr.lean ====
section
/-! SUPPORT. Statements made for every command, one lemma per constructor. -/

namespace Sys2Proof.Laws

/-- The decoder reads back what the encoder wrote, whatever bytes follow. -/
def RoundTrip.Statement (i : Instr) : Prop :=
  i.wellFormed = true → ∀ rest, decode (encode i ++ rest) = .command i rest

theorem RoundTrip.crcReset : RoundTrip.Statement .crcReset := fun _ _ => rfl

theorem RoundTrip.crcUpdate (b : Byte) : RoundTrip.Statement (.crcUpdate b) := fun _ _ => rfl

theorem RoundTrip.crcRead : RoundTrip.Statement .crcRead := fun _ _ => rfl

theorem RoundTrip.envEncode (seq : Word) (frame : ChannelFrame) : RoundTrip.Statement (.envEncode seq frame) :=
  fun _ rest => by simp [encode]

theorem RoundTrip.envEncodeNext (frame : ChannelFrame) : RoundTrip.Statement (.envEncodeNext frame) :=
  fun _ rest => by simp [encode]

theorem RoundTrip.envDecode (buf : List Byte) : RoundTrip.Statement (.envDecode buf) :=
  fun h rest => formatFBUF_bytes .envDecode buf rest (of_decide_eq_true h)

theorem RoundTrip.scale (raw : Half) : RoundTrip.Statement (.scale raw) :=
  fun _ rest => by simp [encode]

theorem RoundTrip.frameEncode (st : Byte) (vals : List Half) : RoundTrip.Statement (.frameEncode st vals) :=
  fun h rest => formatFFRM_bytes .frameEncode st vals rest (of_decide_eq_true h)

theorem RoundTrip.frameFromStatus : RoundTrip.Statement .frameFromStatus := fun _ _ => rfl

theorem RoundTrip.process (buf : List Byte) : RoundTrip.Statement (.process buf) :=
  fun h rest => formatFBUF_bytes .process buf rest (of_decide_eq_true h)

theorem RoundTrip.radioIrq (flag : Byte) : RoundTrip.Statement (.radioIrq flag) := fun _ _ => rfl

theorem RoundTrip.setInitState (value : Byte) : RoundTrip.Statement (.setInitState value) := fun _ _ => rfl

theorem RoundTrip.regRead (index : Byte) : RoundTrip.Statement (.regRead index) := fun _ _ => rfl

end Sys2Proof.Laws
end

