-- ==== Sys2Proof/Tests/Slice0.lean ====
section
/-! SUPPORT. The model's own tests, and for each statement with hypotheses a concrete case that meets them. Every expected
value comes from spec/: the encodings of 30_encoding.md, the rules' examples, and the vectors of 95_test_vectors.md, whose
identifiers (C-3, E-10, ...) stand in the docstrings. -/

namespace Sys2Proof.Tests

open Sys2Proof.Machine Sys2Proof.Claims

/-- A block with these registers, nothing on its ports. -/
def block (r : Registers) : State := { State.reset with regs := r }

/-- A block after reset with these bytes on its command port. -/
def withBytes (bytes : List Byte) : State := State.reset.deliver bytes

/-- The registers and the response bytes a run ends with, `none` where it stops. -/
def ended : Result → Option (Registers × List Byte)
  | .next t => some (t.regs, t.responseBytes)
  | .fault _ => none
  | .refused _ => none

/-- What a command does to a block with these registers. -/
def answer (i : Instr) (r : Registers) : Option (Registers × List Byte) := ended (exec i (block r))

/-- What one step does right after reset with these bytes on the command port; the bytes left on it too. -/
def firstStep (bytes : List Byte) : Option (Registers × List Byte × List Byte) :=
  match step (withBytes bytes) with
  | .next t => some (t.regs, t.responseBytes, t.cmdPort)
  | .fault _ => none
  | .refused _ => none

/-- The frame of 1, 2, 3, 4 thousand that 95_test_vectors.md uses. -/
def thousands : ChannelFrame := ⟨1000#16, 2000#16, 3000#16, 4000#16⟩

/-- The thirteen bytes of an envelope with this id and `thousands`. -/
def envelopeOf (b0 b1 b2 b3 : Byte) : List Byte :=
  [b0, b1, b2, b3, 0x00#8, 0xE8#8, 0x03#8, 0xD0#8, 0x07#8, 0xB8#8, 0x0B#8, 0xA0#8, 0x0F#8]

/-! ### What WellFormed refuses (30_encoding.md R61: L and N are one byte) -/

theorem test_wellFormed_envDecode_256 : (Instr.envDecode (List.replicate 256 0x00#8)).wellFormed = false := by decide +kernel

theorem test_wellFormed_envDecode_255 : (Instr.envDecode (List.replicate 255 0x00#8)).wellFormed = true := by decide +kernel

theorem test_wellFormed_process_256 : (Instr.process (List.replicate 256 0x00#8)).wellFormed = false := by decide +kernel

theorem test_wellFormed_frameEncode_256 :
    (Instr.frameEncode 0x01#8 (List.replicate 256 0#16)).wellFormed = false := by decide +kernel

theorem test_wellFormed_frameEncode_255 :
    (Instr.frameEncode 0x00#8 (List.replicate 255 0#16)).wellFormed = true := by decide +kernel

/-! ### Decoding: words written out from 30_encoding.md R62 and R65 -/

theorem test_decode_crcReset : decode [0x10#8] = .command .crcReset [] := by decide

theorem test_decode_crcUpdate : decode [0x11#8, 0x31#8, 0x12#8] = .command (.crcUpdate 0x31#8) [0x12#8] := by decide

theorem test_decode_crcRead : decode [0x12#8] = .command .crcRead [] := by decide

/-- E-2. -/
theorem test_decode_envEncode :
    decode [0x20#8, 0x12#8, 0x34#8, 0x56#8, 0x78#8, 0x00#8, 0x00#8, 0xFF#8, 0xFF#8, 0x80#8, 0x00#8, 0x00#8, 0x01#8] =
      .command (.envEncode 0x12345678#32 ⟨0#16, 0xFFFF#16, 0x8000#16, 1#16⟩) [] := by decide

/-- E-11. -/
theorem test_decode_envEncodeNext :
    decode [0x21#8, 0x03#8, 0xE8#8, 0x07#8, 0xD0#8, 0x0B#8, 0xB8#8, 0x0F#8, 0xA0#8] =
      .command (.envEncodeNext thousands) [] := by decide

theorem test_decode_envDecode :
    decode [0x22#8, 0x02#8, 0xAA#8, 0xBB#8, 0x10#8] = .command (.envDecode [0xAA#8, 0xBB#8]) [0x10#8] := by decide

theorem test_decode_scale : decode [0x30#8, 0x03#8, 0xE8#8] = .command (.scale 1000#16) [] := by decide

/-- F-3's first two values. -/
theorem test_decode_frameEncode :
    decode [0x31#8, 0x81#8, 0x02#8, 0x80#8, 0x00#8, 0x12#8, 0x34#8, 0x10#8] =
      .command (.frameEncode 0x81#8 [0x8000#16, 0x1234#16]) [0x10#8] := by decide

theorem test_decode_frameFromStatus : decode [0x32#8] = .command .frameFromStatus [] := by decide

/-- Q-10. -/
theorem test_decode_process :
    decode [0x40#8, 0x05#8, 0x05#8, 0x00#8, 0x00#8, 0x00#8, 0x01#8] =
      .command (.process [0x05#8, 0x00#8, 0x00#8, 0x00#8, 0x01#8]) [] := by decide

theorem test_decode_radioIrq : decode [0x41#8, 0x01#8] = .command (.radioIrq 0x01#8) [] := by decide

theorem test_decode_setInitState : decode [0x42#8, 0x02#8] = .command (.setInitState 0x02#8) [] := by decide

theorem test_decode_regRead : decode [0x50#8, 0x0B#8] = .command (.regRead 0x0B#8) [] := by decide

/-- G-6: the next byte is a new opcode. -/
theorem test_decode_unassigned : decode [0x13#8, 0x10#8] = .illegalCommand 0x13#8 [0x10#8] := by decide

/-- R66: a proper prefix of a command. -/
theorem test_decode_incomplete : decode [0x22#8, 0x02#8, 0x00#8] = .incomplete := by decide

/-- The table's numbering: byte 0 in bits 7..0. `SCALE 1000` is `30 03 E8`. -/
theorem test_decodeTableWord_scale : decodeTableWord 24 0xE80330 = some (.scale 1000#16) := by decide

/-- An opcode row of 8 bits: every operand byte is 0, so FRAME_ENCODE has no values. -/
theorem test_decodeTableWord_frameEncode : decodeTableWord 8 0x31 = some (.frameEncode 0x00#8 []) := by decide

theorem test_decodeTableWord_unassigned : decodeTableWord 8 0x13 = none := by decide

/-- The word placed where step fetches is what the first step after reset runs, and nothing of it is left. -/
theorem test_withFetchWord :
    (match step (State.reset.withFetchWord 16 0x3111) with
      | .next t => some (t.regs.crcAcc, t.responseBytes, t.cmdPort)
      | .fault _ => none
      | .refused _ => none) = some (0x2672#16, [0x00#8], []) := by decide

/-! ### One step of each command: 95_test_vectors.md §2 -/

/-- R102's example. -/
theorem test_crcReset :
    answer .crcReset { Registers.reset with crcAcc := 0x31C3#16 } = some (Registers.reset, [0x00#8]) := by decide

/-- C-3. -/
theorem test_crcUpdate :
    answer (.crcUpdate 0x31#8) Registers.reset = some ({ Registers.reset with crcAcc := 0x2672#16 }, [0x00#8]) := by
  decide

/-- C-8. -/
theorem test_crcUpdate_nonzero : crcStep 0x1234#16 0x56#8 = 0x3C40#16 := by decide

theorem test_crcRead :
    answer .crcRead { Registers.reset with crcAcc := 0x31C3#16 } =
      some ({ Registers.reset with crcAcc := 0x31C3#16 }, [0x00#8, 0x31#8, 0xC3#8]) := by decide

/-- E-2; TX_SEQ is neither read nor written. -/
theorem test_envEncode :
    answer (.envEncode 0x12345678#32 ⟨0#16, 0xFFFF#16, 0x8000#16, 1#16⟩) { Registers.reset with txSeq := 9#32 } =
      some ({ Registers.reset with txSeq := 9#32 },
        [0x00#8, 0x0D#8, 0x78#8, 0x56#8, 0x34#8, 0x12#8, 0x00#8, 0x00#8, 0x00#8, 0xFF#8, 0xFF#8, 0x00#8, 0x80#8, 0x01#8,
          0x00#8]) := by decide

/-- E-11. -/
theorem test_envEncodeNext :
    answer (.envEncodeNext thousands) Registers.reset =
      some ({ Registers.reset with txSeq := 1#32 },
        0x00#8 :: 0x0D#8 :: envelopeOf 0x00#8 0x00#8 0x00#8 0x00#8) := by decide

/-- E-10: the counter wraps. -/
theorem test_envEncodeNext_wraps :
    answer (.envEncodeNext ⟨0#16, 0#16, 0#16, 0#16⟩) { Registers.reset with txSeq := 0xFFFFFFFF#32 } =
      some (Registers.reset,
        [0x00#8, 0x0D#8, 0xFF#8, 0xFF#8, 0xFF#8, 0xFF#8, 0x00#8, 0x00#8, 0x00#8, 0x00#8, 0x00#8, 0x00#8, 0x00#8, 0x00#8,
          0x00#8]) := by decide

/-- E-4. -/
theorem test_envDecode :
    answer (.envDecode [0x78#8, 0x56#8, 0x34#8, 0x12#8, 0x00#8, 0x00#8, 0x00#8, 0xFF#8, 0xFF#8, 0x00#8, 0x80#8, 0x01#8,
        0x00#8]) Registers.reset =
      some (Registers.reset,
        [0x00#8, 0x12#8, 0x34#8, 0x56#8, 0x78#8, 0x00#8, 0x00#8, 0x00#8, 0xFF#8, 0xFF#8, 0x80#8, 0x00#8, 0x00#8,
          0x01#8]) := by decide

/-- E-7: twelve bytes are truncated before the discriminant is looked at. -/
theorem test_envDecode_truncated :
    answer (.envDecode ([0x00#8, 0x00#8, 0x00#8, 0x00#8, 0x05#8] ++ List.replicate 7 0x00#8)) Registers.reset =
      some (Registers.reset, [0x02#8, 0x01#8]) := by decide

/-- S-7. -/
theorem test_scale : answer (.scale 1000#16) Registers.reset = some (Registers.reset, [0x00#8, 0x22#8, 0x78#8]) := by
  decide

/-- S-6: the greatest raw value. -/
theorem test_scale_max : answer (.scale 0xFFFF#16) Registers.reset = some (Registers.reset, [0x00#8, 0x3B#8, 0xAD#8]) := by
  decide

/-- F-4. -/
theorem test_frameEncode_failSafe :
    answer (.frameEncode 0x81#8 [0#16]) { Registers.reset with crcAcc := 0x1021#16 } =
      some ({ Registers.reset with crcAcc := 0x86C4#16 },
        [0x00#8, 0x07#8, 0xA8#8, 0x81#8, 0x01#8, 0x22#8, 0x14#8, 0x86#8, 0xC4#8]) := by decide +kernel

/-- F-8: the status byte is checked before the count. -/
theorem test_frameEncode_illegalFirst :
    answer (.frameEncode 0x00#8 (List.replicate 40 0#16)) { Registers.reset with crcAcc := 0x1021#16 } =
      some ({ Registers.reset with crcAcc := 0x1021#16 }, [0x05#8]) := by decide

/-- F-10. -/
theorem test_frameFromStatus :
    answer .frameFromStatus { Registers.reset with curValues := thousands } =
      some ({ Registers.reset with curValues := thousands, crcAcc := 0x8493#16 },
        [0x00#8, 0x0D#8, 0xA8#8, 0x01#8, 0x04#8, 0x22#8, 0x78#8, 0x22#8, 0xDC#8, 0x23#8, 0x40#8, 0x23#8, 0xA4#8, 0x84#8,
          0x93#8]) := by decide +kernel

/-- Q-5: one id skipped. -/
theorem test_process_gap :
    answer (.process (envelopeOf 0x04#8 0x00#8 0x00#8 0x00#8)) { Registers.reset with lastSeq := 2#32 } =
      some ({ Registers.reset with lastSeq := 4#32, missedMsg := 1#32, curValues := thousands }, [0x00#8]) := by decide

/-- As Q-8: an id below LAST_SEQ skips nothing, and still replaces LAST_SEQ and the values. -/
theorem test_process_stale :
    answer (.process (envelopeOf 0x03#8 0x00#8 0x00#8 0x00#8)) { Registers.reset with lastSeq := 0xFFFFFFF0#32 } =
      some ({ Registers.reset with lastSeq := 3#32, curValues := thousands }, [0x00#8]) := by decide

/-- Q-3: IRQ_COUNT wraps, MISSED_IRQ counts. -/
theorem test_radioIrq_queueFull :
    answer (.radioIrq 0x00#8) { Registers.reset with irqCount := 0xFFFFFFFF#32 } =
      some ({ Registers.reset with missedIrq := 1#32 }, [0x00#8]) := by decide

/-- Q-1. -/
theorem test_radioIrq_spawned :
    answer (.radioIrq 0x01#8) Registers.reset = some ({ Registers.reset with irqCount := 1#32 }, [0x00#8]) := by decide

/-- Q-12. -/
theorem test_setInitState :
    answer (.setInitState 0x02#8) Registers.reset = some ({ Registers.reset with initState := 0x02#8 }, [0x00#8]) := by
  decide

/-- G-2. -/
theorem test_regRead :
    (answer (.regRead 0x00#8) { Registers.reset with crcAcc := 0x31C3#16 }).map Prod.snd =
      some [0x00#8, 0x00#8, 0x00#8, 0x31#8, 0xC3#8] := by decide

/-- G-5. -/
theorem test_regRead_reserved : answer (.regRead 0x0C#8) Registers.reset = some (Registers.reset, [0x05#8]) := by decide

/-! ### The port -/

/-- G-6: one byte, one response, and the next byte is the next opcode. -/
theorem test_step_unassigned : firstStep [0x13#8, 0x12#8] = some (Registers.reset, [0x04#8], [0x12#8]) := by decide

/-- R236: a command with an illegal operand is taken off the port whole. -/
theorem test_step_illegalOperand :
    firstStep [0x31#8, 0x00#8, 0x01#8, 0x00#8, 0x01#8, 0x10#8] = some (Registers.reset, [0x05#8], [0x10#8]) := by decide

/-- R66: a partial command waits, without a response. -/
theorem test_step_partial : firstStep [0x11#8] = some (Registers.reset, [], [0x11#8]) := by decide

/-- R150: parameters a model refuses. -/
theorem test_inadmissible :
    admissible ⟨0xA8#8, 0, 0⟩ = false ∧ admissible ⟨0xA8#8, 1, 1⟩ = false ∧ admissible ⟨0xA8#8, 1, 0⟩ = true := by decide

/-! ### Assembler lines of 95_test_vectors.md (30_encoding.md R68, R69) -/

theorem test_line_crcBytes :
    Asm.line "CRC_BYTES [31 39] ; two bytes".toList = some [.crcUpdate 0x31#8, .crcUpdate 0x39#8] := by decide

theorem test_line_envEncode :
    Asm.line "ENV_ENCODE 0x12345678, 0, 0xFFFF, 0x8000, 1".toList =
      some [.envEncode 0x12345678#32 ⟨0#16, 0xFFFF#16, 0x8000#16, 1#16⟩] := by decide

theorem test_line_frameEncode :
    Asm.line "FRAME_ENCODE FAILSAFE, [32768, 0]".toList = some [.frameEncode 0x81#8 [32768#16, 0#16]] := by decide

theorem test_line_process :
    Asm.line "PROCESS [05 00 00 00 01]".toList =
      some [.process [0x05#8, 0x00#8, 0x00#8, 0x00#8, 0x01#8]] := by decide

theorem test_line_operands :
    Asm.line "RADIO_IRQ QUEUE_FULL".toList = some [.radioIrq 0x00#8] ∧
    Asm.line "REG_READ CUR_VALUES[3]".toList = some [.regRead 0x0B#8] ∧
    Asm.line "SCALE 65536".toList = none := by decide

/-! ### Witnesses: each statement's hypotheses are met -/

/-- DecodeUndoesEncode, at the longest commands. -/
theorem witness_decodeUndoesEncode :
    (Instr.process (List.replicate 255 0xEE#8)).wellFormed = true ∧
    (Instr.frameEncode 0xFF#8 (List.replicate 255 0xEEEE#16)).wellFormed = true := by decide +kernel

/-- EncodeUndoesDecode, LaterBytesDoNotChangeACommand, CommandLengthIsKnownFromItsFirstBytes (first clause): a command
with no payload byte and bytes after it. -/
theorem witness_decodesToCommand :
    decode [0x22#8, 0x00#8, 0x10#8] = .command (.envDecode []) [0x10#8] := by decide

/-- The clauses about an unassigned byte of LaterBytesDoNotChangeACommand, CommandLengthIsKnownFromItsFirstBytes,
ErrorsWriteNoRegister and EachRegisterHasOnlyItsWriters. -/
theorem witness_decodesToIllegal : decode [0xFF#8, 0x10#8] = .illegalCommand 0xFF#8 [0x10#8] := by decide

/-- OpcodeByteSelectsTheCommand, UnassignedByteRespondsIllegalCommand: the ends of the unassigned ranges, and the
assigned bytes beside them. -/
theorem witness_unassigned_ends :
    (Unassigned 0x00#8 ∧ Unassigned 0x0F#8 ∧ Unassigned 0x13#8 ∧ Unassigned 0x1F#8 ∧ Unassigned 0x23#8 ∧
      Unassigned 0x2F#8 ∧ Unassigned 0x33#8 ∧ Unassigned 0x3F#8 ∧ Unassigned 0x43#8 ∧ Unassigned 0x4F#8 ∧
      Unassigned 0x51#8 ∧ Unassigned 0xFF#8) ∧
    ¬ Unassigned 0x10#8 ∧ ¬ Unassigned 0x12#8 ∧ ¬ Unassigned 0x20#8 ∧ ¬ Unassigned 0x22#8 ∧ ¬ Unassigned 0x30#8 ∧
    ¬ Unassigned 0x32#8 ∧ ¬ Unassigned 0x40#8 ∧ ¬ Unassigned 0x42#8 ∧ ¬ Unassigned 0x50#8 := by
  simp [Unassigned]

theorem witness_unassignedOnPort : Unassigned 0x51#8 ∧ (withBytes [0x51#8, 0x10#8]).cmdPort = 0x51#8 :: [0x10#8] := by
  exact ⟨by simp [Unassigned], rfl⟩

/-- CommandLengthIsKnownFromItsFirstBytes: the length's ends. -/
theorem witness_commandLength :
    commandLength [0x00#8] = some 1 ∧ commandLength [0x31#8, 0x00#8, 0xFF#8] = some 513 ∧
    commandLength [0x31#8, 0x00#8] = none ∧ decode [0x31#8, 0x00#8] = .incomplete := by decide

/-- PartialCommandHasNotStarted: nothing arrived, and all but one byte arrived. -/
theorem witness_partialCommand :
    ((Instr.scale 1000#16).wellFormed = true ∧ encode (.scale 1000#16) = [] ++ [0x30#8, 0x03#8, 0xE8#8] ∧
      [0x30#8, 0x03#8, 0xE8#8] ≠ ([] : List Byte) ∧ (withBytes []).cmdPort = []) ∧
    (encode (.scale 1000#16) = [0x30#8, 0x03#8] ++ [0xE8#8] ∧ [0xE8#8] ≠ ([] : List Byte) ∧
      (withBytes [0x30#8, 0x03#8]).cmdPort = [0x30#8, 0x03#8]) := by decide

/-- PowerOnDiscardsAPartialCommand: all but one byte of a command has arrived. -/
theorem witness_partialAtPowerOn :
    (withBytes [0x30#8, 0x03#8]).cmdPort ≠ [] ∧ decode (withBytes [0x30#8, 0x03#8]).cmdPort = .incomplete ∧
    Instr.crcRead.wellFormed = true := by decide

/-- StepRunsTheDecodedCommand, and the last clause of IllegalOperandExactlyWhen. -/
theorem witness_commandOnPort :
    (Instr.radioIrq 0x02#8).wellFormed = true ∧
    (withBytes [0x41#8, 0x02#8, 0x12#8]).cmdPort = encode (.radioIrq 0x02#8) ++ [0x12#8] ∧
    Answers (.radioIrq 0x02#8) (withBytes [0x41#8, 0x02#8, 0x12#8]) [0x05#8] Registers.reset :=
  ⟨rfl, rfl, .error .illegalOperand, rfl, rfl⟩

/-- NoRunOfTheBlockStops, and every statement that asks for admissible parameters. -/
theorem witness_admissible :
    admissible State.reset.params = true ∧ admissible ⟨0x00#8, 1, 0⟩ = true ∧ admissible ⟨0xFF#8, 65536, 0xFFFF⟩ = true := by
  decide

/-- InadmissibleParametersAreRefused: both ways to be inadmissible, both statuses, 0 and 32 values; and a refusal. -/
theorem witness_inadmissible :
    (admissible { State.reset with params := ⟨0xA8#8, 0, 0⟩ }.params = false ∧
      (0x01#8 : Byte).toNat = 0x01 ∧ ([] : List Half).length ≤ 32) ∧
    (admissible { State.reset with params := ⟨0xA8#8, 1, 1⟩ }.params = false ∧
      (0x81#8 : Byte).toNat = 0x81 ∧ (List.replicate 32 0#16).length ≤ 32) ∧
    exec (.scale 0#16) { State.reset with params := ⟨0xA8#8, 1, 1⟩ } = .refused .inadmissibleParameters :=
  ⟨⟨rfl, rfl, by decide⟩, ⟨rfl, rfl, by decide⟩, rfl⟩

/-- ErrorsWriteNoRegister, EachErrorComesFromItsCommands: a next state for each error a command reports. -/
theorem witness_errors :
    (∃ t r, exec (.process []) State.reset = .next t ∧ t.rspPort = State.reset.rspPort ++ [r] ∧
      r.bytes.head? = some 0x02#8) ∧
    (∃ t r, exec (.frameEncode 0x01#8 (List.replicate 33 0#16)) State.reset = .next t ∧
      t.rspPort = State.reset.rspPort ++ [r] ∧ r.bytes.head? = some 0x03#8) ∧
    (∃ t r, exec (.regRead 0x07#8) State.reset = .next t ∧ t.rspPort = State.reset.rspPort ++ [r] ∧
      r.bytes.head? = some 0x05#8) :=
  ⟨⟨_, .error (.decodeError .truncated), rfl, rfl, rfl⟩, ⟨_, .error .frameTooLarge, rfl, rfl, rfl⟩,
    ⟨_, .error .illegalOperand, rfl, rfl, rfl⟩⟩

/-- IllegalOperandExactlyWhen: an illegal value beside the legal ones, for each operand. -/
theorem witness_illegalOperands :
    ((0x00#8 : Byte).toNat ≠ 0x01 ∧ (0x00#8 : Byte).toNat ≠ 0x81) ∧ ((0x02#8 : Byte).toNat ≠ 0x00 ∧ (0x02#8 : Byte).toNat ≠ 0x01) ∧
    ((0x07#8 : Byte).toNat = 0x07 ∨ 0x0C ≤ (0x07#8 : Byte).toNat) ∧ ((0x0C#8 : Byte).toNat = 0x07 ∨ 0x0C ≤ (0x0C#8 : Byte).toNat) ∧
    ¬ ((0x06#8 : Byte).toNat = 0x07 ∨ 0x0C ≤ (0x06#8 : Byte).toNat) ∧ ¬ ((0x0B#8 : Byte).toNat = 0x07 ∨ 0x0C ≤ (0x0B#8 : Byte).toNat) := by
  decide

/-- EachRegisterHasOnlyItsWriters: a command that changes each register. -/
theorem witness_writers :
    (∃ t, exec (.crcUpdate 0x01#8) State.reset = .next t ∧ t.regs.crcAcc ≠ State.reset.regs.crcAcc) ∧
    (∃ t, exec (.envEncodeNext thousands) State.reset = .next t ∧ t.regs.txSeq ≠ State.reset.regs.txSeq) ∧
    (∃ t, exec (.process (envelopeOf 0x04#8 0x00#8 0x00#8 0x00#8)) State.reset = .next t ∧
      t.regs.lastSeq ≠ State.reset.regs.lastSeq ∧ t.regs.missedMsg ≠ State.reset.regs.missedMsg ∧
      t.regs.curValues ≠ State.reset.regs.curValues) ∧
    (∃ t, exec (.radioIrq 0x00#8) State.reset = .next t ∧ t.regs.irqCount ≠ State.reset.regs.irqCount ∧
      t.regs.missedIrq ≠ State.reset.regs.missedIrq) ∧
    (∃ t, exec (.setInitState 0x02#8) State.reset = .next t ∧ t.regs.initState ≠ State.reset.regs.initState) ∧
    (∃ t, exec .crcReset State.reset = .next t) ∧
    (∃ t, step State.reset = .next t ∧ decode State.reset.cmdPort = .incomplete) :=
  ⟨⟨_, rfl, by decide⟩, ⟨_, rfl, by decide⟩, ⟨_, rfl, by decide, by decide, by decide⟩, ⟨_, rfl, by decide, by decide⟩,
    ⟨_, rfl, by decide⟩, ⟨_, rfl⟩, ⟨_, rfl, rfl⟩⟩

/-- RepeatedCommands: one command of each clause. -/
theorem witness_repeated :
    (∃ t, exec (.regRead 0x0B#8) State.reset = .next t) ∧ (∃ t, exec (.setInitState 0xFF#8) State.reset = .next t) ∧
    (∃ t u, exec (.radioIrq 0x01#8) State.reset = .next t ∧ exec (.radioIrq 0x01#8) t = .next u) :=
  ⟨⟨_, rfl⟩, ⟨_, rfl⟩, ⟨_, _, rfl, rfl⟩⟩

/-- EveryStepKeepsTheInvariant: the invariant holds with a command on the port, and the step completes. -/
theorem witness_invariant :
    (withBytes [0x12#8]).Inv ∧ ∃ t, step (withBytes [0x12#8]) = .next t :=
  ⟨⟨by decide, fun _ h => by cases h⟩, ⟨_, rfl⟩⟩

/-- StreamTakesEffectInOrder. -/
theorem witness_stream :
    (∀ i ∈ [Instr.crcReset, .crcRead], i.wellFormed = true) ∧
    (withBytes [0x10#8, 0x12#8, 0x30#8]).cmdPort = encodeAll [.crcReset, .crcRead] ++ [0x30#8] := by decide

/-- AcceptanceKeepsEachHostsOrder. -/
theorem witness_interleave :
    interleave [1, 0, 1] [[.crcRead], [.crcReset, .frameFromStatus]] = some [.crcReset, .crcRead, .frameFromStatus] := by
  decide

/-- An envelope as its bytes, `n` bytes of padding after it. -/
def padded (n : Nat) : RawEnvelope :=
  ⟨0x07#8, 0x00#8, 0x00#8, 0x00#8, 0x01#8, 0x00#8, 0x02#8, 0x00#8, 0x03#8, 0x00#8, 0x04#8, 0x00#8, List.replicate n 0xEE#8⟩

/-- RacingFrameIsOldOrNewNeverMixed: parameters, padding, an order, and a run of it that completes. -/
theorem witness_race :
    admissible State.reset.params = true ∧ (padded 19).pad.length ≤ 19 ∧
    interleave [0, 1] [[.process (padded 19).bytes], [.frameFromStatus]] =
      some [.process (padded 19).bytes, .frameFromStatus] ∧
    ∃ t, runCommands [.process (padded 19).bytes, .frameFromStatus] State.reset = .next t :=
  ⟨by decide, by decide, by decide, ⟨_, rfl⟩⟩

/-- EnvDecodeAnswersTheFieldsOrTheReason, ProcessAppliesTheEnvelopeOrDiscardsIt, EnvelopeRoundTrip: the lengths where the
clauses meet, 12 and 13, 32 and 33. -/
theorem witness_lengths :
    (padded 0).bytes.length = 13 ∧ (padded 19).bytes.length = 32 ∧ (padded 19).pad.length ≤ 19 ∧
    (padded 0).bytes[4]? = some 0x00#8 ∧ 32 < (List.replicate 33 0x00#8).length ∧
    (List.replicate 12 0x00#8).length < 13 ∧ (List.replicate 13 0x05#8)[4]? ≠ some 0x00#8 ∧
    (List.replicate 32 0x05#8)[4]? ≠ some 0x00#8 := by decide

/-- ScaleAnswersTheScaledValue: the ends of its ranges (42_frame.md R151). -/
theorem witness_scale :
    (9#16 : Half).toNat ≤ 9 ∧ (32767 ≤ (32767#16 : Half).toNat ∧ (32769#16 : Half).toNat ≤ 32769) ∧
    65530 ≤ (65530#16 : Half).toNat ∧ scaled Params.default 9#16 = some 0x2214#16 ∧
    scaled Params.default 10#16 = some 0x2215#16 ∧ scaled Params.default 32769#16 = some 0x2EE0#16 ∧
    scaled Params.default 65530#16 = some 0x3BAD#16 := by decide

/-- FrameEncodeBuildsTheFrame, HostCrcNeedsNoFrameCommandBetween: a legal and an illegal status, 32 and 33 values, 255
values. -/
theorem witness_frameEncode :
    ((0x81#8 : Byte).toNat = 0x01 ∨ (0x81#8 : Byte).toNat = 0x81) ∧ ((0x80#8 : Byte).toNat ≠ 0x01 ∧ (0x80#8 : Byte).toNat ≠ 0x81) ∧
    (List.replicate 32 0#16).length ≤ 32 ∧ 32 < (List.replicate 33 0#16).length ∧
    (List.replicate 255 0#16).length < 256 := by decide +kernel

/-- CrcAccHoldsTheCrcOfTheFrame, EveryFrameHasItsShape: a frame that is answered (F-1). -/
theorem witness_frameAnswered :
    ∃ t r, exec (.frameEncode 0x01#8 []) State.reset = .next t ∧ t.rspPort = State.reset.rspPort ++ [r] ∧
      r.bytes = 0x00#8 :: 0x05#8 :: [0xA8#8, 0x01#8, 0x00#8, 0x27#8, 0x0C#8] :=
  ⟨_, .ok [0x05#8, 0xA8#8, 0x01#8, 0x00#8, 0x27#8, 0x0C#8], rfl, by decide +kernel, by decide⟩

/-- The same two statements, the clause of FRAME_FROM_STATUS (F-9). -/
theorem witness_statusFrameAnswered :
    ∃ t r, exec .frameFromStatus State.reset = .next t ∧ t.rspPort = State.reset.rspPort ++ [r] ∧
      r.bytes = 0x00#8 :: 0x0D#8 :: [0xA8#8, 0x01#8, 0x04#8, 0x22#8, 0x14#8, 0x22#8, 0x14#8, 0x22#8, 0x14#8, 0x22#8, 0x14#8,
        0x34#8, 0x27#8] :=
  ⟨_, .ok [0x0D#8, 0xA8#8, 0x01#8, 0x04#8, 0x22#8, 0x14#8, 0x22#8, 0x14#8, 0x22#8, 0x14#8, 0x22#8, 0x14#8, 0x34#8, 0x27#8],
    rfl, by decide +kernel, by decide⟩

/-- HostCrcNeedsNoFrameCommandBetween: commands that are no frame command among the updates, and their run. -/
theorem witness_hostCrc :
    (∀ i ∈ [Instr.crcUpdate 0x31#8, .radioIrq 0x01#8, .crcUpdate 0x32#8], restartsCrc i = false) ∧
    ∃ t, runCommands (.crcReset :: [Instr.crcUpdate 0x31#8, .radioIrq 0x01#8, .crcUpdate 0x32#8]) State.reset = .next t :=
  ⟨by decide, ⟨_, rfl⟩⟩

/-- SkippedIdsAreCounted: rising ids above LAST_SEQ, and a run of them. -/
theorem witness_skippedIds :
    List.IsChain (· < ·) (State.reset.regs.lastSeq :: [(1#32, thousands), (4#32, thousands)].map Prod.fst) ∧
    ∃ t, runCommands (processAll [(1#32, thousands), (4#32, thousands)]) State.reset = .next t :=
  ⟨by decide, ⟨_, rfl⟩⟩

/-- LossAccountingFromReset: its bounds on the ids are met, at both first ids. -/
theorem witness_sequentialIds :
    (0 ≤ 1 ∧ 0 + [thousands].length ≤ 2 ^ 32) ∧ (1 ≤ 1 ∧ 1 + [thousands, thousands].length ≤ 2 ^ 32) := by decide

/-- LinkEndToEnd: blocks that match from reset, at the bound, and where TX_SEQ has wrapped. -/
theorem witness_link :
    State.reset.regs.txSeq.toNat ≤ State.reset.regs.lastSeq.toNat + 1 ∧
    (block { Registers.reset with txSeq := 8#32 }).regs.txSeq.toNat ≤
      (block { Registers.reset with lastSeq := 7#32 }).regs.lastSeq.toNat + 1 ∧
    State.reset.regs.txSeq.toNat ≤ (block { Registers.reset with lastSeq := 0xFFFFFFFF#32 }).regs.lastSeq.toNat + 1 := by
  decide

/-- RadioIrqCounts: each flag, and the premises of its bound. -/
theorem witness_radioIrq :
    (0x01#8 : Byte).toNat = 0x01 ∧ (0x00#8 : Byte).toNat = 0x00 ∧ ((0xFF#8 : Byte).toNat ≠ 0x00 ∧ (0xFF#8 : Byte).toNat ≠ 0x01) ∧
    (∃ t, exec (.radioIrq 0x00#8) State.reset = .next t) ∧ State.reset.regs.irqCount.toNat ≠ 2 ^ 32 - 1 ∧
    State.reset.regs.missedIrq.toNat ≤ State.reset.regs.irqCount.toNat :=
  ⟨rfl, rfl, by decide, ⟨_, rfl⟩, by decide, by decide⟩

/-- MissedInterruptsStayBelowInterrupts. -/
theorem witness_missedInterrupts :
    (∃ t, step (withBytes [0x41#8, 0x00#8]) = .next t) ∧ (withBytes []).regs.irqCount ≠ 0xFFFFFFFF#32 ∧
    (withBytes []).regs.missedIrq ≤ (withBytes []).regs.irqCount :=
  ⟨⟨_, rfl⟩, by decide, by decide⟩

/-- InitStateIsStoredNeverInterpreted: another command completes. -/
theorem witness_initState :
    Instr.regRead 0x05#8 ≠ .regRead 0x06#8 ∧ (∀ w, Instr.regRead 0x05#8 ≠ .setInitState w) ∧
    ∃ t, exec (.regRead 0x05#8) State.reset = .next t :=
  ⟨by decide, fun _ h => Instr.noConfusion h, ⟨_, rfl⟩⟩

end Sys2Proof.Tests
end

section
/-! The command port as a stream (20_memory.md R50): a step takes the command at the head of the port and leaves the bytes
behind it to the next step. -/

namespace Sys2Proof.Machine

/-! ### The command at the head of the port -/

/-- The round trip of every command, from the one lemma per constructor. -/
theorem decode_encode_append {i : Instr} (hi : i.wellFormed = true) (rest : List Byte) :
    decode (encode i ++ rest) = .command i rest := by
  cases i with
  | crcReset => exact Laws.RoundTrip.crcReset hi rest
  | crcUpdate b => exact Laws.RoundTrip.crcUpdate b hi rest
  | crcRead => exact Laws.RoundTrip.crcRead hi rest
  | envEncode seq frame => exact Laws.RoundTrip.envEncode seq frame hi rest
  | envEncodeNext frame => exact Laws.RoundTrip.envEncodeNext frame hi rest
  | envDecode buf => exact Laws.RoundTrip.envDecode buf hi rest
  | scale raw => exact Laws.RoundTrip.scale raw hi rest
  | frameEncode st vals => exact Laws.RoundTrip.frameEncode st vals hi rest
  | frameFromStatus => exact Laws.RoundTrip.frameFromStatus hi rest
  | process buf => exact Laws.RoundTrip.process buf hi rest
  | radioIrq flag => exact Laws.RoundTrip.radioIrq flag hi rest
  | setInitState value => exact Laws.RoundTrip.setInitState value hi rest
  | regRead index => exact Laws.RoundTrip.regRead index hi rest

theorem step_of_decode_command {s : State} {i : Instr} {rest : List Byte} (h : decode s.cmdPort = .command i rest) :
    step s = exec i (s.setCmdPort rest) := by
  simp only [step, h]

theorem step_of_encode {s : State} {i : Instr} {rest : List Byte} (hi : i.wellFormed = true)
    (hport : s.cmdPort = encode i ++ rest) : step s = exec i (s.setCmdPort rest) :=
  step_of_decode_command (hport ▸ decode_encode_append hi rest)

theorem encodeAll_cons (i : Instr) (is : List Instr) : encodeAll (i :: is) = encode i ++ encodeAll is := rfl

/-! ### Runs, one command after the other -/

/-- Continue from the next state; a fault or a refusal ends the run. -/
def andThen (o : Result) (f : State → Result) : Result :=
  match o with
  | .next s => f s
  | .fault r => .fault r
  | .refused r => .refused r

/-- `n` steps of the block, with the outcome in the model's own types. -/
def runSteps (n : Nat) (s : State) : Result := Sys2Proof.core.run n s

theorem runSteps_zero (s : State) : runSteps 0 s = .next s := rfl

theorem runSteps_succ (n : Nat) (s : State) : runSteps (n + 1) s = andThen (step s) (runSteps n) := by
  have hstep : Sys2Proof.core.step s = step s := rfl
  simp only [runSteps, Host.Core.run, hstep]
  cases step s with
  | next t => rfl
  | fault r => rfl
  | refused r => rfl

theorem runCommands_cons (i : Instr) (is : List Instr) (s : State) :
    runCommands (i :: is) s = andThen (exec i s) (runCommands is) := rfl

/-- Two continuations that agree on every state, each with its own bytes on the port, agree after every outcome. -/
theorem andThen_withPort_congr {p q : List Byte} {f g : State → Result} (o : Result)
    (h : ∀ t : State, f (t.setCmdPort p) = g (t.setCmdPort q)) :
    andThen (withPort p o) f = andThen (withPort q o) g := by
  cases o with
  | next t => exact h t
  | fault r => rfl
  | refused r => rfl

/-- The key to R50: a command's outcome does not depend on the bytes behind it on the port (`exec_setCmdPort`), so the
commands that still wait there change nothing. -/
theorem runSteps_encodeAll {is : List Instr} (hwf : ∀ i ∈ is, i.wellFormed = true) (rest : List Byte) (s : State)
    (hport : s.cmdPort = encodeAll is ++ rest) :
    runSteps is.length s = runCommands is (s.setCmdPort rest) := by
  induction is generalizing s with
  | nil =>
    have hrest : s.cmdPort = rest := hport
    rw [List.length_nil, runSteps_zero, runCommands_nil, ← hrest, State.setCmdPort_self]
  | cons i is ih =>
    obtain ⟨hi, his⟩ := List.forall_mem_cons.1 hwf
    rw [encodeAll_cons, List.append_assoc] at hport
    have hbehind : ∀ t : State, runSteps is.length (t.setCmdPort (encodeAll is ++ rest)) =
        runCommands is (t.setCmdPort rest) := fun t => by
      rw [ih his _ rfl, State.setCmdPort_setCmdPort]
    calc runSteps (is.length + 1) s
        = andThen (step s) (runSteps is.length) := runSteps_succ _ s
      _ = andThen (withPort (encodeAll is ++ rest) (exec i s)) (runSteps is.length) := by
          rw [step_of_encode hi hport, exec_setCmdPort]
      _ = andThen (withPort rest (exec i s)) (runCommands is) := andThen_withPort_congr _ hbehind
      _ = runCommands (i :: is) (s.setCmdPort rest) := by rw [← exec_setCmdPort, runCommands_cons]

end Sys2Proof.Machine

namespace Sys2Proof.Proofs

/-- Settles O21, by induction on the commands: each step executes the command at the head of the port. -/
theorem streamTakesEffectInOrder : Obligations.StreamTakesEffectInOrder := by
  unfold Obligations.StreamTakesEffectInOrder
  intro commands rest s hwf hport
  exact Machine.runSteps_encodeAll hwf rest s hport

end Sys2Proof.Proofs
end

section
/-! The length of a command (30_encoding.md R61): the opcode says it alone (F0, F1, F2, FV4, FENV and an unassigned byte), or
the byte after it (FBUF), or the byte after that (FFRM). -/

namespace Sys2Proof

/-! ### The byte that says the length -/

/-- Which byte says the length of a command that starts with `op`, and when the decoder waits for more bytes. -/
inductive LengthRule (op : Byte) : Prop where
  /-- The opcode alone: an unassigned byte, and the formats of fixed length. -/
  | opcode (n : Nat) (hpos : 1 ≤ n) (hmax : n ≤ 13) (hlen : ∀ rest, commandLength (op :: rest) = some n)
      (hwait : ∀ rest, decode (op :: rest) = .incomplete ↔ rest.length + 1 < n)
  /-- The byte at offset 1: format FBUF. -/
  | fbuf (mk : List Byte → Instr)
      (hlen : ∀ rest, commandLength (op :: rest) = rest[0]?.map fun len => 2 + len.toNat)
      (hdecode : ∀ rest, decode (op :: rest) = formatFBUF mk rest)
  /-- The byte at offset 2: format FFRM. -/
  | ffrm (mk : Byte → List Half → Instr)
      (hlen : ∀ rest, commandLength (op :: rest) = rest[1]?.map fun n => 3 + 2 * n.toNat)
      (hdecode : ∀ rest, decode (op :: rest) = formatFFRM mk rest)

theorem commandLength_of_unassigned {op : Byte} (h : formatOf op = none) (rest : List Byte) :
    commandLength (op :: rest) = some 1 := by
  simp only [commandLength, h]

theorem LengthRule.f0 {op : Byte} {i : Instr} (hlen : ∀ rest, commandLength (op :: rest) = some 1)
    (hdecode : ∀ rest, decode (op :: rest) = formatF0 i rest) : LengthRule op :=
  .opcode 1 (by decide) (by decide) hlen fun rest => by simp [hdecode, formatF0]

theorem LengthRule.f1 {op : Byte} {mk : Byte → Instr} (hlen : ∀ rest, commandLength (op :: rest) = some 2)
    (hdecode : ∀ rest, decode (op :: rest) = formatF1 mk rest) : LengthRule op :=
  .opcode 2 (by decide) (by decide) hlen fun rest => by rw [hdecode, formatF1_incomplete]; omega

theorem lengthRule (op : Byte) : LengthRule op := by
  rcases opcode_cases op with
    rfl | rfl | rfl | rfl | rfl | rfl | rfl | rfl | rfl | rfl | rfl | rfl | rfl | ⟨hformat, hdecode⟩
  · exact .f0 (fun _ => rfl) decode_crcReset
  · exact .f1 (fun _ => rfl) decode_crcUpdate
  · exact .f0 (fun _ => rfl) decode_crcRead
  · exact .opcode 13 (by decide) (by decide) (fun _ => rfl) fun rest => by
      rw [decode_envEncode, formatFENV_incomplete]; omega
  · exact .opcode 9 (by decide) (by decide) (fun _ => rfl) fun rest => by
      rw [decode_envEncodeNext, formatFV4_incomplete]; omega
  · exact .fbuf _ (fun _ => rfl) decode_envDecode
  · exact .opcode 3 (by decide) (by decide) (fun _ => rfl) fun rest => by
      rw [decode_scale, formatF2_incomplete]; omega
  · exact .ffrm _ (fun _ => rfl) decode_frameEncode
  · exact .f0 (fun _ => rfl) decode_frameFromStatus
  · exact .fbuf _ (fun _ => rfl) decode_process
  · exact .f1 (fun _ => rfl) decode_radioIrq
  · exact .f1 (fun _ => rfl) decode_setInitState
  · exact .f1 (fun _ => rfl) decode_regRead
  · exact .opcode 1 (by decide) (by decide) (commandLength_of_unassigned hformat) fun rest => by simp [hdecode]

/-! ### What the length is -/

theorem commandLength_bounds {bytes : List Byte} {n : Nat} (h : commandLength bytes = some n) : 1 ≤ n ∧ n ≤ 513 := by
  cases bytes with
  | nil => cases h
  | cons op rest =>
    cases lengthRule op with
    | opcode m hpos hmax hlen =>
      rw [hlen, Option.some.injEq] at h
      omega
    | fbuf mk hlen =>
      rw [hlen, Option.map_eq_some_iff] at h
      obtain ⟨len, -, rfl⟩ := h
      omega
    | ffrm mk hlen =>
      rw [hlen, Option.map_eq_some_iff] at h
      obtain ⟨count, -, rfl⟩ := h
      omega

theorem exists_commandLength_of_three (a b c : Byte) : ∃ n, commandLength [a, b, c] = some n := by
  cases lengthRule a with
  | opcode n _ _ hlen => exact ⟨n, hlen _⟩
  | fbuf mk hlen => exact ⟨_, hlen _⟩
  | ffrm mk hlen => exact ⟨_, hlen _⟩

theorem getElem?_append_of_some {bytes : List Byte} {k : Nat} {b : Byte} (h : bytes[k]? = some b) (more : List Byte) :
    (bytes ++ more)[k]? = some b := by
  obtain ⟨hk, -⟩ := List.getElem?_eq_some_iff.1 h
  rw [List.getElem?_append_left hk, h]

theorem commandLength_append {bytes : List Byte} {n : Nat} (h : commandLength bytes = some n) (more : List Byte) :
    commandLength (bytes ++ more) = some n := by
  cases bytes with
  | nil => cases h
  | cons op rest =>
    rw [List.cons_append]
    cases lengthRule op with
    | opcode m _ _ hlen => rwa [hlen] at h ⊢
    | fbuf mk hlen =>
      rw [hlen, Option.map_eq_some_iff] at h ⊢
      obtain ⟨len, hat, hn⟩ := h
      exact ⟨len, getElem?_append_of_some hat more, hn⟩
    | ffrm mk hlen =>
      rw [hlen, Option.map_eq_some_iff] at h ⊢
      obtain ⟨count, hat, hn⟩ := h
      exact ⟨count, getElem?_append_of_some hat more, hn⟩

/-! ### The decoder waits exactly while bytes of that length are missing -/

theorem decode_incomplete_iff (bytes : List Byte) :
    decode bytes = .incomplete ↔ ∀ n, commandLength bytes = some n → bytes.length < n := by
  cases bytes with
  | nil => simp [commandLength]
  | cons op rest =>
    cases lengthRule op with
    | opcode m _ _ hlen hwait => simp [hlen, hwait]
    | fbuf mk hlen hdecode =>
      rw [hlen, hdecode]
      cases rest with
      | nil => simp [formatFBUF]
      | cons len buf =>
        simp only [formatFBUF_incomplete, List.getElem?_cons_zero, Option.map_some, Option.some.injEq, forall_eq',
          List.length_cons]
        omega
    | ffrm mk hlen hdecode =>
      rw [hlen, hdecode]
      rcases rest with _ | ⟨st, _ | ⟨count, vals⟩⟩
      · simp [formatFFRM]
      · simp [formatFFRM]
      · simp only [formatFFRM_incomplete, List.getElem?_cons_succ, List.getElem?_cons_zero, Option.map_some,
          Option.some.injEq, forall_eq', List.length_cons]
        omega

/-! ### What decodes to a command is its encoding, which has the length of its format -/

theorem decode_command_inv {bytes rest : List Byte} {i : Instr} (h : decode bytes = .command i rest) :
    i.wellFormed = true ∧ encode i ++ rest = bytes := by
  match bytes, h with
  | op :: r, h =>
    rcases opcode_cases op with
      rfl | rfl | rfl | rfl | rfl | rfl | rfl | rfl | rfl | rfl | rfl | rfl | rfl | ⟨-, hdecode⟩
    · cases h; exact ⟨rfl, rfl⟩
    · obtain ⟨b, rfl, rfl⟩ := formatF1_inv h; exact ⟨rfl, rfl⟩
    · cases h; exact ⟨rfl, rfl⟩
    · obtain ⟨seq, f, rfl, rfl⟩ := formatFENV_inv h
      exact ⟨rfl, by simp [encode]⟩
    · obtain ⟨f, rfl, rfl⟩ := formatFV4_inv h; exact ⟨rfl, rfl⟩
    · obtain ⟨buf, hbuf, rfl, rfl⟩ := formatFBUF_inv h; exact ⟨decide_eq_true hbuf, rfl⟩
    · obtain ⟨v, rfl, rfl⟩ := formatF2_inv h; exact ⟨rfl, rfl⟩
    · obtain ⟨st, vals, hvals, rfl, rfl⟩ := formatFFRM_inv h; exact ⟨decide_eq_true hvals, rfl⟩
    · cases h; exact ⟨rfl, rfl⟩
    · obtain ⟨buf, hbuf, rfl, rfl⟩ := formatFBUF_inv h; exact ⟨decide_eq_true hbuf, rfl⟩
    · obtain ⟨b, rfl, rfl⟩ := formatF1_inv h; exact ⟨rfl, rfl⟩
    · obtain ⟨b, rfl, rfl⟩ := formatF1_inv h; exact ⟨rfl, rfl⟩
    · obtain ⟨b, rfl, rfl⟩ := formatF1_inv h; exact ⟨rfl, rfl⟩
    · rw [hdecode] at h; cases h

theorem length_encode (i : Instr) : (encode i).length = Claims.lengthOf i := by
  cases i with
  | envDecode buf => simp only [encode, List.length_cons, Claims.lengthOf]; omega
  | process buf => simp only [encode, List.length_cons, Claims.lengthOf]; omega
  | frameEncode st vals => simp only [encode, List.length_cons, length_flatMap_be16, Claims.lengthOf]; omega
  | _ => rfl

theorem commandLength_encode {i : Instr} (hi : i.wellFormed = true) :
    commandLength (encode i) = some (Claims.lengthOf i) := by
  cases i with
  | envDecode buf => exact congrArg (fun n => some (2 + n)) (lengthByte_toNat (of_decide_eq_true hi))
  | process buf => exact congrArg (fun n => some (2 + n)) (lengthByte_toNat (of_decide_eq_true hi))
  | frameEncode st vals => exact congrArg (fun n => some (3 + 2 * n)) (lengthByte_toNat (of_decide_eq_true hi))
  | _ => rfl

theorem commandLength_of_decode_command {bytes rest : List Byte} {i : Instr} (h : decode bytes = .command i rest) :
    commandLength bytes = some (Claims.lengthOf i) ∧ bytes.length = Claims.lengthOf i + rest.length := by
  obtain ⟨hi, rfl⟩ := decode_command_inv h
  exact ⟨commandLength_append (commandLength_encode hi) rest, by rw [List.length_append, length_encode]⟩

theorem commandLength_of_decode_illegal {bytes rest : List Byte} {op : Byte}
    (h : decode bytes = .illegalCommand op rest) : commandLength bytes = some 1 ∧ bytes.length = 1 + rest.length := by
  obtain ⟨rfl, hop⟩ := decode_illegal_inv h
  exact ⟨commandLength_of_unassigned hop rest, by rw [List.length_cons, Nat.add_comm]⟩

end Sys2Proof

namespace Sys2Proof.Proofs

/-- Settles O6: the opcode's length rule gives the bounds, the wait and the independence of later bytes, and the encoding
of a decoded command gives its length. -/
theorem commandLengthIsKnownFromItsFirstBytes : Obligations.CommandLengthIsKnownFromItsFirstBytes := by
  unfold Obligations.CommandLengthIsKnownFromItsFirstBytes
  exact ⟨fun _ _ _ h => commandLength_of_decode_command h, fun _ _ _ h => commandLength_of_decode_illegal h,
    decode_incomplete_iff, fun _ _ h => commandLength_bounds h, exists_commandLength_of_three,
    fun _ more _ h => commandLength_append h more, rfl⟩

end Sys2Proof.Proofs
end

section
/-! The CRC engine (40_crc.md): one round on plain numbers, and what a host's run of CRC_RESET, CRC_UPDATEs and CRC_READ
leaves and answers. -/

namespace Sys2Proof.Machine

/-! ### The CRC step on plain numbers (R100) -/

/-- One round of R100 on plain numbers: bit 15 tested before the shift, the result modulo 2^16. -/
def crcRoundNat (a : Nat) : Nat :=
  if a / 2 ^ 15 % 2 = 1 then ((a <<< 1) ^^^ 0x1021) % 2 ^ 16 else (a <<< 1) % 2 ^ 16

theorem getLsbD_fifteen_iff (a : Half) : a.getLsbD 15 = true ↔ a.toNat / 2 ^ 15 % 2 = 1 := by
  rw [BitVec.getLsbD, Nat.testBit_eq_decide_div_mod_eq, decide_eq_true_iff]

theorem crcRound_toNat (a : Half) : (crcRound a).toNat = crcRoundNat a.toNat := by
  by_cases hbit : a.getLsbD 15 = true
  · have hpoly : Config.crcPoly.toNat = 0x1021 % 2 ^ 16 := rfl
    rw [crcRound, if_pos hbit, crcRoundNat, if_pos ((getLsbD_fifteen_iff a).1 hbit), BitVec.toNat_xor,
      BitVec.toNat_shiftLeft, hpoly, ← Nat.xor_mod_two_pow]
  · rw [crcRound, if_neg hbit, crcRoundNat, if_neg (mt (getLsbD_fifteen_iff a).2 hbit), BitVec.toNat_shiftLeft]

theorem crcRounds_toNat (n : Nat) (a : Half) : (crcRounds n a).toNat = crcRoundNat^[n] a.toNat := by
  induction n generalizing a with
  | zero => rfl
  | succ n ih => rw [crcRounds, ih, crcRound_toNat, Function.iterate_succ_apply]

/-- A byte shifted into the high byte loses no bit. -/
theorem highByte_toNat (b : Byte) : (b.setWidth 16 <<< 8).toNat = b.toNat <<< 8 := by
  have := b.isLt
  rw [BitVec.toNat_shiftLeft, BitVec.toNat_setWidth_of_le (by decide), Nat.shiftLeft_eq]
  omega

/-! ### Values of the CRC (R103, R104, R105) -/

theorem crcStep_zero : crcStep 0x0000#16 0x00#8 = 0x0000#16 := by decide

theorem crc16_zero_cons (bytes : List Byte) : crc16 (0x00#8 :: bytes) = crc16 bytes :=
  congrArg (bytes.foldl crcStep) crcStep_zero

/-- The check value of the CRC, over the characters "123456789" (R104's example). -/
theorem crc16_check :
    crc16 [0x31#8, 0x32#8, 0x33#8, 0x34#8, 0x35#8, 0x36#8, 0x37#8, 0x38#8, 0x39#8] = 0x31C3#16 := by
  simp [crc16, crcStep, crcRounds, crcRound, Config.crcInit, Config.crcPoly]

/-! ### Answers -/

theorem extractByte_eq_byte {w : Nat} (v : BitVec w) (k : Nat) :
    v.extractLsb' k 8 = Claims.byte (v.toNat / 2 ^ k) :=
  BitVec.eq_of_toNat_eq (extractByte_toNat v k)

@[simp] theorem byte_mod (n : Nat) : Claims.byte (n % 2 ^ 8) = Claims.byte n :=
  BitVec.eq_of_toNat_eq (Nat.mod_mod n (2 ^ 8))

theorem be16_eq_big2 (v : Half) : be16 v = Claims.big2 v.toNat := by
  rw [be16, Claims.big2, byte_mod, extractByte_eq_byte, extractByte_eq_byte, Nat.pow_zero, Nat.div_one]

theorem answers_of_exec_ok {i : Instr} {s : State} {payload : List Byte} {regs : Registers}
    (h : exec i s = .next (s.answered (.ok payload) regs)) : Claims.Answers i s (0x00#8 :: payload) regs :=
  ⟨.ok payload, rfl, h⟩

/-! ### The run of a host -/

/-- CRC_BYTES completes and folds `crcStep` over its bytes into CRC_ACC, and no other register changes. -/
theorem runCommands_crcBytes (bytes : List Byte) (s : State) :
    ∃ t : State, runCommands (Asm.crcBytes bytes) s = .next t ∧
      t.regs = { s.regs with crcAcc := bytes.foldl crcStep s.regs.crcAcc } := by
  induction bytes generalizing s with
  | nil => exact ⟨s, rfl, rfl⟩
  | cons b bs ih =>
    obtain ⟨t, hrun, hregs⟩ := ih (s.answered (.ok []) { s.regs with crcAcc := crcStep s.regs.crcAcc b })
    exact ⟨t, (runCommands_cons_next (exec_crcUpdate s b)).trans hrun, hregs⟩

/-- CRC_RESET, the bytes and CRC_READ: `crc16` of the bytes in CRC_ACC and in the last response. -/
theorem runCommands_crcOfBytes (bytes : List Byte) (s : State) :
    ∃ (r : Response) (t : State),
      runCommands (.crcReset :: (Asm.crcBytes bytes ++ [.crcRead])) s = .next t ∧
      t.regs = { s.regs with crcAcc := crc16 bytes } ∧ t.rspPort.getLast? = some r ∧
      r.bytes = 0x00#8 :: Claims.big2 (crc16 bytes).toNat := by
  obtain ⟨t, hrun, hregs⟩ := runCommands_crcBytes bytes (s.answered (.ok []) { s.regs with crcAcc := 0x0000#16 })
  have hacc : t.regs.crcAcc = crc16 bytes := congrArg Registers.crcAcc hregs
  refine ⟨.ok (be16 t.regs.crcAcc), t.answered (.ok (be16 t.regs.crcAcc)) t.regs, ?_, hregs, ?_, ?_⟩
  · rw [runCommands_cons_next (exec_crcReset s), runCommands_append_next hrun, runCommands_cons_next (exec_crcRead t),
      runCommands_nil]
  · exact List.getLast?_concat
  · rw [hacc, be16_eq_big2]; rfl

end Sys2Proof.Machine

namespace Sys2Proof.Proofs

open Sys2Proof.Machine

/-- Settles O24, by induction on the rounds: a round of the engine is a round on plain numbers. -/
theorem crcStepIsEightShifts : Obligations.CrcStepIsEightShifts := by
  unfold Obligations.CrcStepIsEightShifts
  intro acc b
  have hstart : (acc ^^^ (b.setWidth 16 <<< 8)).toNat = acc.toNat ^^^ (b.toNat <<< 8) := by
    rw [BitVec.toNat_xor, highByte_toNat]
  exact (crcRounds_toNat 8 _).trans (congrArg crcRoundNat^[8] hstart)

/-- Settles O28, by induction on the bytes fed. -/
theorem crcDependsOnTheBytesAlone : Obligations.CrcDependsOnTheBytesAlone := by
  unfold Obligations.CrcDependsOnTheBytesAlone
  exact ⟨runCommands_crcOfBytes, crcStep_zero, crc16_zero_cons⟩

/-- Settles O25: the command in closed form, and the answer it puts on the port. -/
theorem crcResetClearsTheAccumulator : Obligations.CrcResetClearsTheAccumulator := by
  unfold Obligations.CrcResetClearsTheAccumulator
  exact fun s rest => ⟨decode_crcReset rest, answers_of_exec_ok (exec_crcReset s)⟩

/-- Settles O26: the command in closed form, and the four values evaluated. -/
theorem crcUpdateFeedsOneByte : Obligations.CrcUpdateFeedsOneByte := by
  unfold Obligations.CrcUpdateFeedsOneByte
  exact ⟨fun s b rest => ⟨decode_crcUpdate (b :: rest), answers_of_exec_ok (exec_crcUpdate s b)⟩,
    crcStep_zero, by decide, by decide, by decide⟩

/-- Settles O27; the example is the run of O28 on the nine bytes, with the check value as their `crc16`. -/
theorem crcReadReturnsTheAccumulator : Obligations.CrcReadReturnsTheAccumulator := by
  unfold Obligations.CrcReadReturnsTheAccumulator
  constructor
  · intro s rest
    exact ⟨decode_crcRead rest,
      be16_eq_big2 s.regs.crcAcc ▸ answers_of_exec_ok (exec_crcRead s)⟩
  · intro s
    obtain ⟨r, t, hrun, -, hlast, hbytes⟩ :=
      runCommands_crcOfBytes [0x31#8, 0x32#8, 0x33#8, 0x34#8, 0x35#8, 0x36#8, 0x37#8, 0x38#8, 0x39#8] s
    rw [crc16_check] at hbytes
    exact ⟨t, r, hrun, hlast, hbytes⟩

end Sys2Proof.Proofs
end

section
/-! The envelope codec (41_envelope.md): an envelope's bytes as numbers, what the decoder makes of each payload, and the
answers of the three commands. -/

namespace Sys2Proof.Machine

/-! ### Fields as bytes on plain numbers (00_scope.md R3) -/

theorem be32_eq_big4 (v : Word) : be32 v = Claims.big4 v.toNat := by
  simp only [be32, Claims.big4, byte_mod, extractByte_eq_byte, Nat.pow_zero, Nat.div_one]

theorem le16_map_toNat (v : Half) : (le16 v).map BitVec.toNat = [v.toNat % 2 ^ 8, v.toNat / 2 ^ 8] := by
  have hhigh : v.toNat / 2 ^ 8 % 2 ^ 8 = v.toNat / 2 ^ 8 := by omega
  simp only [le16, List.map_cons, List.map_nil, extractByte_toNat, hhigh, Nat.pow_zero, Nat.div_one]

theorem le32_map_toNat (v : Word) :
    (le32 v).map BitVec.toNat =
      [v.toNat % 2 ^ 8, v.toNat / 2 ^ 8 % 2 ^ 8, v.toNat / 2 ^ 16 % 2 ^ 8, v.toNat / 2 ^ 24] := by
  have htop : v.toNat / 2 ^ 24 % 2 ^ 8 = v.toNat / 2 ^ 24 := by omega
  simp only [le32, List.map_cons, List.map_nil, extractByte_toNat, htop, Nat.pow_zero, Nat.div_one]

/-- Adding one to a word is adding one modulo 2^32 (41_envelope.md R126). -/
theorem word_add_one (v : Word) : v + 1 = BitVec.ofNat 32 ((v.toNat + 1) % 2 ^ 32) :=
  BitVec.eq_of_toNat_eq (by rw [BitVec.toNat_add, BitVec.toNat_ofNat, Nat.mod_mod]; rfl)

/-! ### What decodes, and why the rest does not (R127, R128) -/

theorem envelopeDecode_rawEnvelope (e : Claims.RawEnvelope) (hpad : e.pad.length ≤ 19) :
    envelopeDecode e.bytes =
      .envelope ⟨word e.s3 e.s2 e.s1 e.s0,
        .channelValues ⟨half e.a1 e.a0, half e.b1 e.b0, half e.c1 e.c0, half e.d1 e.d0⟩⟩ :=
  envelopeDecode_of_bytes _ _ _ _ _ _ _ _ _ _ _ _ e.pad hpad

theorem envelopeDecode_of_fifth_byte_ne {buf : List Byte} (hmin : 13 ≤ buf.length) (hmax : buf.length ≤ 32)
    (hdisc : buf[4]? ≠ some 0x00#8) : envelopeDecode buf = .fail .unknownDiscriminant := by
  obtain ⟨s0, s1, s2, s3, d, a0, a1, b0, b1, c0, c1, d0, d1, pad, rfl⟩ := exists_thirteen hmin
  have hpad : pad.length ≤ 19 := by simp only [List.length_cons] at hmax; omega
  have hd : d ≠ 0x00#8 := fun h => hdisc (congrArg some h)
  exact envelopeDecode_of_discriminant _ _ _ _ _ _ _ _ _ _ _ _ _ pad hpad hd

/-! ### Payloads and answers (R129, 60_exceptions.md R231) -/

theorem decodedPayload_of_bytes (s0 s1 s2 s3 a0 a1 b0 b1 c0 c1 d0 d1 : Byte) :
    decodedPayload ⟨word s3 s2 s1 s0, .channelValues ⟨half a1 a0, half b1 b0, half c1 c0, half d1 d0⟩⟩ =
      [s3, s2, s1, s0, 0x00#8, a1, a0, b1, b0, c1, c0, d1, d0] := by
  simp only [decodedPayload, be32_word, be16_half]
  rfl

theorem length_rawEnvelope_bytes (e : Claims.RawEnvelope) : e.bytes.length = 13 + e.pad.length :=
  List.length_append

theorem answers_of_exec_error {i : Instr} {s : State} {e : CommandError}
    (h : exec i s = .next (s.answered (.error e) s.regs)) : Claims.Answers i s (e.code :: e.info) s.regs :=
  ⟨.error e, rfl, h⟩

end Sys2Proof.Machine

namespace Sys2Proof.Proofs

open Sys2Proof.Machine

/-- Settles O36: the payload that decodes is answered field by field, and any other with the reason of the
first check that fails. -/
theorem envDecodeAnswersTheFieldsOrTheReason : Obligations.EnvDecodeAnswersTheFieldsOrTheReason := by
  unfold Obligations.EnvDecodeAnswersTheFieldsOrTheReason
  constructor
  · intro s e rest hpad
    have hlen : e.bytes.length < 256 := by rw [length_rawEnvelope_bytes]; omega
    have hexec := exec_envDecode_ok s (envelopeDecode_rawEnvelope e hpad)
    rw [decodedPayload_of_bytes] at hexec
    exact ⟨decode_encode_append (i := .envDecode e.bytes) (decide_eq_true hlen) rest, answers_of_exec_ok hexec⟩
  · intro s buf
    refine ⟨fun hlong => ?_, fun hshort => ?_, fun hmin hmax hdisc => ?_⟩
    · exact answers_of_exec_error (exec_envDecode_fail s (envelopeDecode_of_long hlong))
    · exact answers_of_exec_error (exec_envDecode_fail s (envelopeDecode_of_short hshort))
    · exact answers_of_exec_error (exec_envDecode_fail s (envelopeDecode_of_fifth_byte_ne hmin hmax hdisc))

/-- Settles O32, field by field: each field's bytes as numbers. -/
theorem envelopeLayout : Obligations.EnvelopeLayout := by
  unfold Obligations.EnvelopeLayout
  intro seq f
  simp only [envelopeEncode, Body.payload, List.map_append, le32_map_toNat, le16_map_toNat]
  rfl

/-- Settles O33: the round trip of the command with its fields as numbers, and its closed form. -/
theorem envEncodeAnswersTheEnvelope : Obligations.EnvEncodeAnswersTheEnvelope := by
  unfold Obligations.EnvEncodeAnswersTheEnvelope
  intro s seq f rest
  refine ⟨?_, answers_of_exec_ok (exec_envEncode s seq f)⟩
  simp only [← be32_eq_big4, ← be16_eq_big2]
  exact decode_encode_append (i := .envEncode seq f) rfl rest

/-- Settles O34: the round trip of the command, and its closed form with the increment modulo 2^32. -/
theorem envEncodeNextNumbersTheEnvelope : Obligations.EnvEncodeNextNumbersTheEnvelope := by
  unfold Obligations.EnvEncodeNextNumbersTheEnvelope
  intro s f rest
  refine ⟨?_, word_add_one s.regs.txSeq ▸ answers_of_exec_ok (exec_envEncodeNext s f)⟩
  simp only [← be16_eq_big2]
  exact decode_encode_append (i := .envEncodeNext f) rfl rest

end Sys2Proof.Proofs
end

section
/-! The frame encoder (42_frame.md): its answer on plain numbers, and what a frame command that answers a frame leaves in
CRC_ACC. -/

namespace Sys2Proof.Machine

/-! ### The frame on plain numbers (R150, R152) -/

theorem be16_ofNat (n : Nat) : be16 (BitVec.ofNat 16 n) = Claims.big2 n := by
  have hhigh : Claims.byte (n % 2 ^ 16 / 2 ^ 8) = Claims.byte (n / 2 ^ 8) := by
    rw [← byte_mod (n / 2 ^ 8)]
    exact congrArg Claims.byte (by omega)
  have hlow : n % 2 ^ 16 % 2 ^ 8 = n % 2 ^ 8 := by omega
  rw [be16_eq_big2, BitVec.toNat_ofNat, Claims.big2, hhigh, hlow, Claims.big2]

theorem plainBody_eq_bodyOf (p : Params) (st : Byte) (vals : List Half) :
    plainBody p st vals = Claims.bodyOf p st vals := by
  simp only [plainBody, be16_ofNat]
  rfl

theorem legalFrameStatus_iff_toNat (st : Byte) :
    legalFrameStatus st = true ↔ st.toNat = 0x01 ∨ st.toNat = 0x81 := by
  rw [legalFrameStatus_iff, BitVec.toNat_eq, BitVec.toNat_eq]
  rfl

theorem exec_frameEncode (s : State) (st : Byte) (vals : List Half) :
    exec (.frameEncode st vals) s = buildFrame st vals s := rfl

theorem exec_frameEncode_ok (s : State) {st : Byte} (hst : legalFrameStatus st = true) {vals : List Half}
    (hn : vals.length ≤ 32) (hp : admissible s.params = true) :
    exec (.frameEncode st vals) s =
      .next (s.answered (.ok (Claims.framePayloadOf s.params st vals))
        { s.regs with crcAcc := crc16 (Claims.bodyOf s.params st vals) }) := by
  rw [exec_frameEncode, buildFrame_ok s hst hn hp, plainBody_eq_bodyOf, be16_eq_big2]
  rfl

theorem frameFromStatus_answers {s : State} (hp : admissible s.params = true) :
    Claims.Answers .frameFromStatus s (0x00#8 :: Claims.framePayloadOf s.params 0x01#8 (channelList s.regs.curValues))
      { s.regs with crcAcc := crc16 (Claims.bodyOf s.params 0x01#8 (channelList s.regs.curValues)) } :=
  answers_of_exec_ok ((exec_frameFromStatus s).trans (exec_frameEncode_ok s rfl (show 4 ≤ 32 by decide) hp))

/-! ### Frames of the default parameters (R154, R156) -/

theorem framePayloadOf_eq {p : Params} {st : Byte} {vals : List Half} {body : List Byte} {crc : Half}
    (hcrc : crc16 body = crc) (hbody : Claims.bodyOf p st vals = body) :
    Claims.framePayloadOf p st vals = Claims.byte (5 + 2 * vals.length) :: (body ++ Claims.big2 crc.toNat) := by
  rw [Claims.framePayloadOf, hbody, hcrc]

theorem crc16_liveBody_empty : crc16 [0xA8#8, 0x01#8, 0x00#8] = 0x270C#16 := by
  simp [crc16, crcStep, crcRounds, crcRound, Config.crcInit, Config.crcPoly]

theorem crc16_liveBody_thousands :
    crc16 [0xA8#8, 0x01#8, 0x04#8, 0x22#8, 0x78#8, 0x22#8, 0xDC#8, 0x23#8, 0x40#8, 0x23#8, 0xA4#8] = 0x8493#16 := by
  simp [crc16, crcStep, crcRounds, crcRound, Config.crcInit, Config.crcPoly]

theorem crc16_liveBody_zeros :
    crc16 [0xA8#8, 0x01#8, 0x04#8, 0x22#8, 0x14#8, 0x22#8, 0x14#8, 0x22#8, 0x14#8, 0x22#8, 0x14#8] = 0x3427#16 := by
  simp [crc16, crcStep, crcRounds, crcRound, Config.crcInit, Config.crcPoly]

/-! ### A frame that was answered, and its CRC (R155) -/

theorem State.answered_rspPort_inj {s : State} {r r' : Response} {regs : Registers}
    (h : (s.answered r' regs).rspPort = s.rspPort ++ [r]) : r' = r :=
  List.singleton_inj.1 (List.append_cancel_left h)

/-- An OK response of FRAME_ENCODE comes from its last branch only: the errors answer another status byte. -/
theorem frameEncode_answered_inv {s t : State} {st len : Byte} {vals : List Half} {r : Response} {frame : List Byte}
    (hexec : exec (.frameEncode st vals) s = .next t) (hport : t.rspPort = s.rspPort ++ [r])
    (hbytes : r.bytes = 0x00#8 :: len :: frame) :
    len :: frame = Claims.framePayloadOf s.params st vals ∧
      t.regs.crcAcc = crc16 (Claims.bodyOf s.params st vals) := by
  cases exec_inv hexec with
  | frameIllegal _ _ hst =>
    obtain rfl := State.answered_rspPort_inj hport
    cases hbytes
  | frameTooLarge _ _ hst hn =>
    obtain rfl := State.answered_rspPort_inj hport
    cases hbytes
  | frameOk _ _ hst hn hp =>
    obtain rfl := State.answered_rspPort_inj hport
    rw [plainBody_eq_bodyOf, be16_eq_big2] at hbytes
    refine ⟨(List.cons.inj hbytes).2.symm, ?_⟩
    rw [State.answered_regs, plainBody_eq_bodyOf]

/-- The frame of either frame command is a body and the CRC that CRC_ACC holds. -/
theorem frame_eq_body_append_crcAcc {i : Instr} {s t : State} {r : Response} {len : Byte} {frame : List Byte}
    (hi : i = .frameFromStatus ∨ ∃ st vals, i = .frameEncode st vals) (hexec : exec i s = .next t)
    (hport : t.rspPort = s.rspPort ++ [r]) (hbytes : r.bytes = 0x00#8 :: len :: frame) :
    ∃ body, frame = body ++ Claims.big2 t.regs.crcAcc.toNat ∧ t.regs.crcAcc = crc16 body := by
  have hencode : ∃ st vals, exec (.frameEncode st vals) s = .next t := by
    obtain rfl | ⟨st, vals, rfl⟩ := hi
    · exact ⟨_, _, exec_frameFromStatus s ▸ hexec⟩
    · exact ⟨st, vals, hexec⟩
  obtain ⟨st, vals, hexec⟩ := hencode
  obtain ⟨hframe, hacc⟩ := frameEncode_answered_inv hexec hport hbytes
  exact ⟨Claims.bodyOf s.params st vals, hacc ▸ (List.cons.inj hframe).2, hacc⟩

end Sys2Proof.Machine

namespace Sys2Proof.Proofs

open Sys2Proof.Machine

/-- Settles O38: the round trip of the command and its closed form; the corner cases are divisions by ten. -/
theorem scaleAnswersTheScaledValue : Obligations.ScaleAnswersTheScaledValue := by
  unfold Obligations.ScaleAnswersTheScaledValue
  refine ⟨fun s raw rest hp => ⟨?_, ?_, ?_⟩, fun raw => ⟨fun hmax => ?_, fun hmin hmax => ?_, fun hmin => ?_⟩, rfl⟩
  · rw [← be16_eq_big2]
    exact decode_encode_append (i := .scale raw) rfl rest
  · exact Nat.le_of_lt_succ (scaled_lt hp raw)
  · exact be16_ofNat _ ▸ answers_of_exec_ok (exec_scale s hp raw)
  · exact narrow_eq_some.2 (show 0x2214 = raw.toNat / 10 + 0x2214 by omega)
  · exact narrow_eq_some.2 (show 0x2EE0 = raw.toNat / 10 + 0x2214 by omega)
  · exact narrow_eq_some.2 (show 0x3BAD = raw.toNat / 10 + 0x2214 by omega)

/-- Settles O40, branch by branch of R154's pseudocode; the two frames are evaluated. -/
theorem frameEncodeBuildsTheFrame : Obligations.FrameEncodeBuildsTheFrame := by
  unfold Obligations.FrameEncodeBuildsTheFrame
  refine ⟨fun s st vals rest => ⟨fun hlen => ?_, fun hlive hfail => ?_, fun hlegal => ?_⟩,
    (framePayloadOf_eq crc16_liveBody_empty rfl).trans rfl,
    (framePayloadOf_eq crc16_liveBody_thousands rfl).trans rfl⟩
  · simp only [← be16_eq_big2]
    exact decode_encode_append (i := .frameEncode st vals) (decide_eq_true hlen) rest
  · have hst : legalFrameStatus st = false := by
      rw [← Bool.not_eq_true, legalFrameStatus_iff_toNat]
      exact not_or.2 ⟨hlive, hfail⟩
    exact answers_of_exec_error ((exec_frameEncode s st vals).trans (buildFrame_illegal s hst vals))
  · have hst := (legalFrameStatus_iff_toNat st).2 hlegal
    exact ⟨fun hn => answers_of_exec_error ((exec_frameEncode s st vals).trans (buildFrame_tooLarge s hst hn)),
      fun hn hp => answers_of_exec_ok (exec_frameEncode_ok s hst hn hp)⟩

/-- Settles O42: the frame is a body and its CRC, so all but its last two bytes are the body. -/
theorem crcAccHoldsTheCrcOfTheFrame : Obligations.CrcAccHoldsTheCrcOfTheFrame := by
  unfold Obligations.CrcAccHoldsTheCrcOfTheFrame
  intro i s t r len frame hi hexec hport hbytes
  obtain ⟨body, rfl, hacc⟩ := frame_eq_body_append_crcAcc hi hexec hport hbytes
  have hlen : (body ++ Claims.big2 t.regs.crcAcc.toNat).length - 2 = body.length := by
    rw [List.length_append]; rfl
  rw [hlen, List.take_left, List.drop_left]
  exact ⟨hacc, rfl, be16_eq_big2 t.regs.crcAcc ▸ answers_of_exec_ok (exec_crcRead t)⟩

/-- Settles O41: the command is FRAME_ENCODE of the four values; the frame right after reset is evaluated. -/
theorem frameFromStatusSendsTheCurrentValues : Obligations.FrameFromStatusSendsTheCurrentValues := by
  unfold Obligations.FrameFromStatusSendsTheCurrentValues
  refine ⟨fun s rest => ⟨decode_frameFromStatus rest, exec_frameFromStatus s, frameFromStatus_answers⟩, ?_⟩
  have hanswers := frameFromStatus_answers (s := State.reset) rfl
  have hbody : Claims.bodyOf State.reset.params 0x01#8 (channelList State.reset.regs.curValues) =
      [0xA8#8, 0x01#8, 0x04#8, 0x22#8, 0x14#8, 0x22#8, 0x14#8, 0x22#8, 0x14#8, 0x22#8, 0x14#8] := rfl
  rwa [framePayloadOf_eq crc16_liveBody_zeros hbody, hbody, crc16_liveBody_zeros] at hanswers

end Sys2Proof.Proofs
end

section
/-! The link status unit (43_link_status.md): what PROCESS and RADIO_IRQ leave in the registers on plain numbers, and
that no command but its REG_READ depends on INIT_STATE. -/

namespace Sys2Proof.Machine

/-! ### A received envelope on plain numbers (R180, R181) -/

theorem word_rawEnvelope_toNat (e : Claims.RawEnvelope) : (word e.s3 e.s2 e.s1 e.s0).toNat = e.seq := by
  rw [word_toNat, Claims.RawEnvelope.seq]
  omega

theorem word_rawEnvelope (e : Claims.RawEnvelope) : word e.s3 e.s2 e.s1 e.s0 = BitVec.ofNat 32 e.seq := by
  rw [← word_rawEnvelope_toNat, BitVec.ofNat_toNat, BitVec.setWidth_eq]

theorem half_eq_ofNat (hi lo : Byte) : half hi lo = BitVec.ofNat 16 (lo.toNat + hi.toNat * 2 ^ 8) := by
  rw [Nat.add_comm, ← half_toNat, BitVec.ofNat_toNat, BitVec.setWidth_eq]

theorem values_rawEnvelope (e : Claims.RawEnvelope) :
    e.values = ⟨half e.a1 e.a0, half e.b1 e.b0, half e.c1 e.c0, half e.d1 e.d0⟩ := by
  simp only [half_eq_ofNat]
  rfl

/-- The ids skipped between LAST_SEQ and a greater id, added to MISSED_MSG: no subtraction wraps, only the sum is modulo
2^32. -/
theorem add_skipped_eq_ofNat {last seq : Word} (h : last.toNat < seq.toNat) (missed : Word) :
    missed + (seq - last - 1) = BitVec.ofNat 32 ((missed.toNat + (seq.toNat - last.toNat - 1)) % 2 ^ 32) := by
  have hone : (1 : Word).toNat = 1 := rfl
  apply BitVec.eq_of_toNat_eq
  rw [BitVec.toNat_add, BitVec.toNat_sub, BitVec.toNat_sub, hone, BitVec.toNat_ofNat]
  omega

theorem received_missedMsg (r : Registers) (seq : Word) (f : ChannelFrame) :
    (r.received seq f).missedMsg =
      if seq.toNat > r.lastSeq.toNat then
        BitVec.ofNat 32 ((r.missedMsg.toNat + (seq.toNat - r.lastSeq.toNat - 1)) % 2 ^ 32)
      else r.missedMsg := by
  by_cases h : r.lastSeq.toNat < seq.toNat
  · rw [if_pos h, ← add_skipped_eq_ofNat h]
    exact if_pos h
  · rw [if_neg h]
    exact if_neg h

/-- The registers after an envelope, its fields read off the bytes as plain numbers. -/
theorem received_rawEnvelope (r : Registers) (e : Claims.RawEnvelope) :
    r.received (word e.s3 e.s2 e.s1 e.s0) ⟨half e.a1 e.a0, half e.b1 e.b0, half e.c1 e.c0, half e.d1 e.d0⟩ =
      { r with
        missedMsg :=
          if e.seq > r.lastSeq.toNat then
            BitVec.ofNat 32 ((r.missedMsg.toNat + (e.seq - r.lastSeq.toNat - 1)) % 2 ^ 32)
          else r.missedMsg
        lastSeq := BitVec.ofNat 32 e.seq
        curValues := e.values } := by
  rw [← values_rawEnvelope, ← word_rawEnvelope, ← word_rawEnvelope_toNat, ← received_missedMsg r _ e.values]
  rfl

/-! ### The interrupt counters (R184, R185) -/

theorem word_add_one_toNat {v : Word} (h : v.toNat < 2 ^ 32 - 1) : (v + 1).toNat = v.toNat + 1 :=
  BitVec.toNat_add_of_lt (Nat.add_lt_of_lt_sub h)

/-- Each interrupt counts in IRQ_COUNT, so MISSED_IRQ does not pass it while IRQ_COUNT does not wrap. -/
theorem radioIrq_keeps_missedIrq_le {flag : Byte} {s t : State} (hexec : exec (.radioIrq flag) s = .next t)
    (hwrap : s.regs.irqCount.toNat ≠ 2 ^ 32 - 1) (hle : s.regs.missedIrq.toNat ≤ s.regs.irqCount.toNat) :
    t.regs.missedIrq.toNat ≤ t.regs.irqCount.toNat := by
  have hirq : s.regs.irqCount.toNat < 2 ^ 32 - 1 := by
    have := s.regs.irqCount.isLt
    omega
  have hcount := word_add_one_toNat hirq
  have hmissed := word_add_one_toNat (Nat.lt_of_le_of_lt hle hirq)
  cases exec_inv hexec with
  | irqSpawned => exact hcount ▸ Nat.le_succ_of_le hle
  | irqQueueFull => exact hcount ▸ hmissed ▸ Nat.succ_le_succ hle
  | irqIllegal => exact hle

/-! ### INIT_STATE is read by its REG_READ alone (R186) -/

theorem regOfIndex_initState {index : Byte} (h : regOfIndex index = some .initState) : index = 0x06#8 := by
  unfold regOfIndex at h
  split at h
  case h_7 hindex => exact BitVec.eq_of_toNat_eq hindex
  all_goals cases h

theorem read_of_ne_initState {name : RegName} (h : name ≠ .initState) (r : Registers) (v : Byte) :
    ({ r with initState := v } : Registers).read name = r.read name := by
  cases name with
  | initState => exact absurd rfl h
  | crcAcc | txSeq | lastSeq | missedMsg | irqCount | missedIrq | curValue0 | curValue1 | curValue2 | curValue3 => rfl

theorem exec_keeps_initState {i : Instr} {s t : State} (hset : ∀ w, i ≠ .setInitState w)
    (hexec : exec i s = .next t) : t.regs.initState = s.regs.initState := by
  cases exec_inv hexec
  case setInitState w => exact absurd rfl (hset w)
  all_goals rfl

/-- Another value in INIT_STATE changes neither the answer nor what is written: each command's closed form, from the
state with that value. -/
theorem exec_setInitState_comm {i : Instr} {s t : State} (v : Byte) (hread : i ≠ .regRead 0x06#8)
    (hset : ∀ w, i ≠ .setInitState w) (hexec : exec i s = .next t) :
    exec i (s.setInitState v) = .next (t.setInitState v) := by
  cases exec_inv hexec with
  | crcReset | crcUpdate b | crcRead | irqSpawned | irqQueueFull => rfl
  | envEncode seq f => exact exec_envEncode (s.setInitState v) seq f
  | envEncodeNext f => exact exec_envEncodeNext (s.setInitState v) f
  | envDecodeOk buf e h => exact exec_envDecode_ok (s.setInitState v) h
  | envDecodeFail buf reason h => exact exec_envDecode_fail (s.setInitState v) h
  | scaleOk raw hp => exact exec_scale (s.setInitState v) hp raw
  | frameIllegal st vals h => exact buildFrame_illegal (s.setInitState v) h vals
  | frameTooLarge st vals h hn => exact buildFrame_tooLarge (s.setInitState v) h hn
  | frameOk st vals h hn hp => exact buildFrame_ok (s.setInitState v) h hn hp
  | statusOk hp =>
    exact buildFrame_ok (s.setInitState v) (st := 0x01#8) rfl (vals := channelList s.regs.curValues)
      (show 4 ≤ 32 by decide) hp
  | processOk buf seq f h => exact exec_process_ok (s.setInitState v) h
  | processFail buf reason h => exact exec_process_fail (s.setInitState v) h
  | irqIllegal flag h0 h1 => exact exec_radioIrq_illegal (s.setInitState v) h0 h1
  | setInitState w => exact absurd rfl (hset w)
  | regReadOk index name h =>
    have hname : name ≠ .initState := fun hn => hread (congrArg Instr.regRead (regOfIndex_initState (hn ▸ h)))
    rw [← read_of_ne_initState hname s.regs v]
    exact exec_regRead_ok (s.setInitState v) h
  | regReadReserved index h => exact exec_regRead_reserved (s.setInitState v) h

/-- A byte zero-extended to 32 bits, most significant byte first (20_memory.md R45). -/
theorem be32_setWidth_byte (b : Byte) : be32 (b.setWidth 32) = [0x00#8, 0x00#8, 0x00#8, b] := by
  have hword : b.setWidth 32 = word 0x00#8 0x00#8 0x00#8 b := by
    apply BitVec.eq_of_toNat_eq
    rw [word_toNat, BitVec.toNat_setWidth_of_le (by decide)]
    simp
  rw [hword, be32_word]

end Sys2Proof.Machine

namespace Sys2Proof.Proofs

open Sys2Proof.Machine

/-- Settles O44: the payload that decodes is applied field by field, and any other is discarded with the reason of the
first check that fails. -/
theorem processAppliesTheEnvelopeOrDiscardsIt : Obligations.ProcessAppliesTheEnvelopeOrDiscardsIt := by
  unfold Obligations.ProcessAppliesTheEnvelopeOrDiscardsIt
  constructor
  · intro s e rest hpad
    have hlen : e.bytes.length < 256 := by rw [length_rawEnvelope_bytes]; omega
    have hexec := exec_process_ok s (envelopeDecode_rawEnvelope e hpad)
    rw [received_rawEnvelope] at hexec
    exact ⟨decode_encode_append (i := .process e.bytes) (decide_eq_true hlen) rest, answers_of_exec_ok hexec⟩
  · intro s buf
    refine ⟨fun hlong => ?_, fun hshort => ?_, fun hmin hmax hdisc => ?_⟩
    · exact answers_of_exec_error (exec_process_fail s (envelopeDecode_of_long hlong))
    · exact answers_of_exec_error (exec_process_fail s (envelopeDecode_of_short hshort))
    · exact answers_of_exec_error (exec_process_fail s (envelopeDecode_of_fifth_byte_ne hmin hmax hdisc))

/-- Settles O50: the two commands of INIT_STATE in closed form, and every other command from a state with another value
in it. -/
theorem initStateIsStoredNeverInterpreted : Obligations.InitStateIsStoredNeverInterpreted := by
  unfold Obligations.InitStateIsStoredNeverInterpreted
  constructor
  · intro s v rest
    exact ⟨decode_setInitState (v :: rest), answers_of_exec_ok (exec_setInitState s v),
      be32_setWidth_byte s.regs.initState ▸ answers_of_exec_ok (exec_regRead_ok s (r := .initState) rfl)⟩
  · intro i s t v hread hset hexec
    exact ⟨exec_keeps_initState hset hexec, exec_setInitState_comm v hread hset hexec⟩

/-- Settles O48: the command in closed form for each flag, with the increments modulo 2^32. -/
theorem radioIrqCounts : Obligations.RadioIrqCounts := by
  unfold Obligations.RadioIrqCounts
  intro s flag rest
  refine ⟨decode_radioIrq (flag :: rest), fun hflag => ?spawned, fun hflag => ?queueFull, fun h0 h1 => ?illegal,
    fun t => radioIrq_keeps_missedIrq_le⟩
  case spawned =>
    obtain rfl : flag = 0x01#8 := BitVec.eq_of_toNat_eq hflag
    exact word_add_one s.regs.irqCount ▸ answers_of_exec_ok (exec_radioIrq_spawned s)
  case queueFull =>
    obtain rfl : flag = 0x00#8 := BitVec.eq_of_toNat_eq hflag
    exact word_add_one s.regs.irqCount ▸ word_add_one s.regs.missedIrq ▸
      answers_of_exec_ok (exec_radioIrq_queueFull s)
  case illegal =>
    exact answers_of_exec_error
      (exec_radioIrq_illegal s (mt (congrArg BitVec.toNat) h0) (mt (congrArg BitVec.toNat) h1))

end Sys2Proof.Proofs
end

section
/-! Register access (44_register_access.md): the reserved indices, and what REG_READ answers for each of the others. -/

namespace Sys2Proof.Machine

/-- The indices that name no register (R210): 0x07 and every one from 0x0C on. -/
theorem regOfIndex_eq_none_iff {index : Byte} :
    regOfIndex index = none ↔ index.toNat = 0x07 ∨ 0x0C ≤ index.toNat := by
  unfold regOfIndex
  split
  case h_12 =>
    refine iff_of_true rfl ?_
    simp only [imp_false] at *
    omega
  all_goals exact iff_of_false nofun (by omega)

/-- REG_READ of a register that holds the number `n`. -/
theorem answers_regRead (s : State) {index : Byte} {name : RegName} {n : Nat} (hindex : regOfIndex index = some name)
    (hn : (s.regs.read name).toNat = n) :
    Claims.Answers (.regRead index) s (0x00#8 :: Claims.big4 n) s.regs :=
  hn ▸ be32_eq_big4 (s.regs.read name) ▸ answers_of_exec_ok (exec_regRead_ok s hindex)

end Sys2Proof.Machine

namespace Sys2Proof.Proofs

open Sys2Proof.Machine

/-- Settles O51: each legal index names its register, whose number zero-extension keeps, and the other indices name
none. -/
theorem regReadReturnsEachRegister : Obligations.RegReadReturnsEachRegister := by
  unfold Obligations.RegReadReturnsEachRegister
  intro s index rest
  have zextByte (v : Byte) : (v.setWidth 32).toNat = v.toNat := BitVec.toNat_setWidth_of_le (by decide)
  have zextHalf (v : Half) : (v.setWidth 32).toNat = v.toNat := BitVec.toNat_setWidth_of_le (by decide)
  exact ⟨decode_regRead (index :: rest),
    answers_regRead s (name := .crcAcc) rfl (zextHalf _),
    answers_regRead s (name := .txSeq) rfl rfl,
    answers_regRead s (name := .lastSeq) rfl rfl,
    answers_regRead s (name := .missedMsg) rfl rfl,
    answers_regRead s (name := .irqCount) rfl rfl,
    answers_regRead s (name := .missedIrq) rfl rfl,
    answers_regRead s (name := .initState) rfl (zextByte _),
    answers_regRead s (name := .curValue0) rfl (zextHalf _),
    answers_regRead s (name := .curValue1) rfl (zextHalf _),
    answers_regRead s (name := .curValue2) rfl (zextHalf _),
    answers_regRead s (name := .curValue3) rfl (zextHalf _),
    fun hreserved => answers_of_exec_error (exec_regRead_reserved s (regOfIndex_eq_none_iff.mpr hreserved))⟩

end Sys2Proof.Proofs
end

section
/-! Exceptions (60_exceptions.md): an unassigned opcode byte, the atomicity of errors, and the operands that are illegal. -/

namespace Sys2Proof.Machine

/-! ### An unassigned opcode byte (R235) -/

/-- The bytes without a format are the ranges that the last line of 30_encoding.md R65 lists. -/
theorem formatOf_eq_none_iff {op : Byte} : formatOf op = none ↔ Claims.Unassigned op := by
  unfold formatOf Claims.Unassigned
  split
  case h_14 =>
    refine iff_of_true rfl ?_
    simp only [imp_false] at *
    omega
  all_goals exact iff_of_false nofun (by omega)

theorem step_of_decode_illegal {s : State} {op : Byte} {rest : List Byte}
    (h : decode s.cmdPort = .illegalCommand op rest) :
    step s = .next ((s.setCmdPort rest).answered (.error .illegalCommand) s.regs) := by
  simp only [step, h, illegalCommand_eq]
  rfl

/-! ### A command answers OK, or an error and writes no register (R231, R232) -/

/-- The two ways a command completes. -/
theorem exec_next_cases {i : Instr} {s t : State} (h : exec i s = .next t) :
    (∃ payload regs, t = s.answered (.ok payload) regs) ∨ (∃ e, t = s.answered (.error e) s.regs) := by
  cases exec_inv h with
  | envDecodeFail | frameIllegal | frameTooLarge | processFail | irqIllegal | regReadReserved => exact .inr ⟨_, rfl⟩
  | _ => exact .inl ⟨_, _, rfl⟩

theorem error_bytes_mem (e : CommandError) :
    (Response.error e).bytes ∈
      [[0x01#8], [0x02#8, 0x01#8], [0x02#8, 0x02#8], [0x02#8, 0x03#8], [0x03#8], [0x04#8], [0x05#8]] := by
  cases e with
  | decodeError reason => cases reason <;> decide
  | encodeOverflow | frameTooLarge | illegalCommand | illegalOperand => decide

/-! ### ILLEGAL_OPERAND (R236) -/

/-- An operand of the command is outside its legal set, as R236 lists them. -/
def HasIllegalOperand (i : Instr) : Prop :=
  (∃ st vals, i = .frameEncode st vals ∧ st.toNat ≠ 0x01 ∧ st.toNat ≠ 0x81) ∨
  (∃ flag, i = .radioIrq flag ∧ flag.toNat ≠ 0x00 ∧ flag.toNat ≠ 0x01) ∨
  (∃ index, i = .regRead index ∧ (index.toNat = 0x07 ∨ 0x0C ≤ index.toNat))

theorem legalFrameStatus_eq_false_iff {st : Byte} :
    legalFrameStatus st = false ↔ st.toNat ≠ 0x01 ∧ st.toNat ≠ 0x81 := by
  rw [← Bool.not_eq_true, legalFrameStatus_iff_toNat, not_or]

theorem exec_of_hasIllegalOperand {i : Instr} (h : HasIllegalOperand i) (s : State) :
    exec i s = .next (s.answered (.error .illegalOperand) s.regs) := by
  obtain ⟨st, vals, rfl, hst⟩ | ⟨flag, rfl, h0, h1⟩ | ⟨index, rfl, hindex⟩ := h
  · exact buildFrame_illegal s (legalFrameStatus_eq_false_iff.mpr hst) vals
  · exact exec_radioIrq_illegal s (mt (congrArg BitVec.toNat) h0) (mt (congrArg BitVec.toNat) h1)
  · exact exec_regRead_reserved s (regOfIndex_eq_none_iff.mpr hindex)

/-- Three branches of the commands answer ILLEGAL_OPERAND, each behind its operand's check; every other one answers
something else. -/
theorem hasIllegalOperand_of_exec {i : Instr} {s t : State} (hexec : exec i s = .next t)
    (hport : t.rspPort = s.rspPort ++ [.error .illegalOperand]) : HasIllegalOperand i := by
  cases exec_inv hexec with
  | frameIllegal st vals hst => exact .inl ⟨st, vals, rfl, legalFrameStatus_eq_false_iff.mp hst⟩
  | irqIllegal flag h0 h1 => exact .inr (.inl ⟨flag, rfl, BitVec.toNat_ne_iff_ne.mpr h0, BitVec.toNat_ne_iff_ne.mpr h1⟩)
  | regReadReserved index hindex => exact .inr (.inr ⟨index, rfl, regOfIndex_eq_none_iff.mp hindex⟩)
  | _ => cases State.answered_rspPort_inj hport

theorem eq_illegalOperand_of_status {r : Response} (h : r.bytes.head? = some 0x05#8) :
    r = .error .illegalOperand := by
  cases r with
  | ok payload => cases h
  | error e =>
    cases e with
    | illegalOperand => rfl
    | encodeOverflow | decodeError | frameTooLarge | illegalCommand => cases h

theorem answers_illegalOperand_iff {i : Instr} {s : State} :
    Claims.Answers i s [0x05#8] s.regs ↔ HasIllegalOperand i := by
  constructor
  · rintro ⟨r, hbytes, hexec⟩
    obtain rfl := eq_illegalOperand_of_status (congrArg List.head? hbytes)
    exact hasIllegalOperand_of_exec hexec rfl
  · exact fun h => answers_of_exec_error (exec_of_hasIllegalOperand h s)

end Sys2Proof.Machine

namespace Sys2Proof.Proofs

open Sys2Proof.Machine

/-- Settles O5: the byte has no format, so it decodes alone to an illegal command. -/
theorem unassignedByteRespondsIllegalCommand : Obligations.UnassignedByteRespondsIllegalCommand := by
  unfold Obligations.UnassignedByteRespondsIllegalCommand
  intro s op rest hop hport
  have hdecode : decode s.cmdPort = .illegalCommand op rest :=
    hport ▸ decode_of_unassigned (formatOf_eq_none_iff.mpr hop) rest
  exact ⟨.error .illegalCommand, rfl, step_of_decode_illegal hdecode⟩

/-- Settles O13: a status other than OK is an error's, and an error leaves the registers as they were. -/
theorem errorsWriteNoRegister : Obligations.ErrorsWriteNoRegister := by
  unfold Obligations.ErrorsWriteNoRegister
  constructor
  · intro i s t hexec
    obtain ⟨payload, regs, rfl⟩ | ⟨e, rfl⟩ := exec_next_cases hexec
    · exact ⟨.ok payload, rfl, rfl, rfl, fun hstatus => absurd rfl hstatus⟩
    · exact ⟨.error e, rfl, rfl, rfl, fun _ => ⟨rfl, error_bytes_mem e⟩⟩
  · intro op rest s t hdecode hstep
    rw [step_of_decode_illegal hdecode] at hstep
    cases hstep
    exact ⟨rfl, .error .illegalCommand, rfl, rfl⟩

/-- Settles O15: status 05 is ILLEGAL_OPERAND's alone, which a command answers exactly when it has an illegal operand,
whatever bytes are on the port. -/
theorem illegalOperandExactlyWhen : Obligations.IllegalOperandExactlyWhen := by
  unfold Obligations.IllegalOperandExactlyWhen
  refine ⟨fun i s => answers_illegalOperand_iff, ?status, ?port⟩
  case status =>
    intro i s t r hexec hport hstatus
    obtain rfl := eq_illegalOperand_of_status hstatus
    exact answers_illegalOperand_iff.mpr (hasIllegalOperand_of_exec hexec hport)
  case port =>
    intro i s rest hi hport hanswers
    have hillegal := answers_illegalOperand_iff.mp hanswers
    exact ⟨_, (step_of_encode hi hport).trans (exec_of_hasIllegalOperand hillegal _), rfl⟩

end Sys2Proof.Proofs
end

section
/-! Reset and hazards (70_reset_and_hazards.md): what a power-on leaves, which command writes which register, and what
becomes of CRC_ACC between a host's CRC_RESET and its CRC_READ. -/

namespace Sys2Proof.Machine

/-! ### Power-on and delivery (R260) -/

@[simp] theorem State.powerOn_regs (s : State) : s.powerOn.regs = Registers.reset := rfl
@[simp] theorem State.powerOn_cmdPort (s : State) : s.powerOn.cmdPort = [] := rfl
@[simp] theorem State.powerOn_rspPort (s : State) : s.powerOn.rspPort = [] := rfl
@[simp] theorem State.deliver_cmdPort (s : State) (bytes : List Byte) :
    (s.deliver bytes).cmdPort = s.cmdPort ++ bytes := rfl

theorem State.deliver_setCmdPort (s : State) (bytes p : List Byte) :
    (s.deliver bytes).setCmdPort p = s.setCmdPort p := rfl

/-! ### The writers of each register (R261) -/

theorem step_of_decode_incomplete {s : State} (h : decode s.cmdPort = .incomplete) : step s = .next s := by
  simp only [step, h, waitForBytes]

/-- The writers of CRC_ACC, as 10_state.md R11 lists them. -/
def WritesCrcAcc (i : Instr) : Prop :=
  i = .crcReset ∨ (∃ b, i = .crcUpdate b) ∨ (∃ st vals, i = .frameEncode st vals) ∨ i = .frameFromStatus

/-- What a command can make of the registers `r`: nothing, or other values in the registers that it writes. -/
inductive Writes (r : Registers) : Instr → Registers → Prop where
  | nothing (i : Instr) : Writes r i r
  | crcAcc {i : Instr} (hi : WritesCrcAcc i) (v : Half) : Writes r i { r with crcAcc := v }
  | txSeq (f : ChannelFrame) (v : Word) : Writes r (.envEncodeNext f) { r with txSeq := v }
  | link (buf : List Byte) (last missed : Word) (f : ChannelFrame) :
      Writes r (.process buf) { r with lastSeq := last, missedMsg := missed, curValues := f }
  | irq (flag : Byte) (count missed : Word) :
      Writes r (.radioIrq flag) { r with irqCount := count, missedIrq := missed }
  | initState (v : Byte) : Writes r (.setInitState v) { r with initState := v }

theorem exec_writes {i : Instr} {s t : State} (hexec : exec i s = .next t) : Writes s.regs i t.regs := by
  cases exec_inv hexec with
  | crcReset => exact .crcAcc (.inl rfl) _
  | crcUpdate b => exact .crcAcc (.inr (.inl ⟨b, rfl⟩)) _
  | frameOk st vals => exact .crcAcc (.inr (.inr (.inl ⟨st, vals, rfl⟩))) _
  | statusOk => exact .crcAcc (.inr (.inr (.inr rfl))) _
  | envEncodeNext f => exact .txSeq f _
  | processOk buf seq f => exact .link buf _ _ f
  | irqSpawned => exact .irq _ _ s.regs.missedIrq
  | irqQueueFull => exact .irq _ _ _
  | setInitState v => exact .initState v
  | _ => exact .nothing _

/-! ### CRC_ACC between a CRC_RESET and a CRC_READ (R270) -/

theorem updateBytes_cons (i : Instr) (is : List Instr) :
    Claims.updateBytes (i :: is) = Claims.updateBytes [i] ++ Claims.updateBytes is := by
  cases i <;> rfl

/-- A command that does not restart the CRC feeds CRC_ACC its byte if it is a CRC_UPDATE, and leaves it otherwise. -/
theorem exec_crcAcc_of_not_restarts {i : Instr} {s t : State} (hi : Claims.restartsCrc i = false)
    (hexec : exec i s = .next t) :
    t.regs.crcAcc = (Claims.updateBytes [i]).foldl crcStep s.regs.crcAcc := by
  cases exec_inv hexec with
  | crcReset | frameIllegal | frameTooLarge | frameOk | statusOk => cases hi
  | _ => rfl

theorem runCommands_crcAcc_of_not_restarts {is : List Instr} {s t : State}
    (his : ∀ i ∈ is, Claims.restartsCrc i = false) (hrun : runCommands is s = .next t) :
    t.regs.crcAcc = (Claims.updateBytes is).foldl crcStep s.regs.crcAcc := by
  induction is generalizing s with
  | nil => cases hrun; rfl
  | cons i is ih =>
    obtain ⟨hi, his⟩ := List.forall_mem_cons.1 his
    obtain ⟨u, hexec, hrun⟩ := runCommands_cons_eq_next.1 hrun
    rw [updateBytes_cons, List.foldl_append, ← exec_crcAcc_of_not_restarts hi hexec]
    exact ih his hrun

/-- A legal FRAME_ENCODE starts the CRC again, so the state it ends in does not depend on CRC_ACC before it. -/
theorem frameEncode_overwrites_crcAcc (s : State) (v : Half) {st : Byte} (hst : legalFrameStatus st = true)
    {vals : List Half} (hn : vals.length ≤ 32) (hp : admissible s.params = true) :
    ∃ t : State, exec (.frameEncode st vals) s = .next t ∧ exec (.frameEncode st vals) (s.setCrcAcc v) = .next t ∧
      t.regs.crcAcc = crc16 (Claims.bodyOf s.params st vals) :=
  ⟨_, exec_frameEncode_ok s hst hn hp, exec_frameEncode_ok (s.setCrcAcc v) hst hn hp, rfl⟩

theorem frameFromStatus_overwrites_crcAcc (s : State) (v : Half) (hp : admissible s.params = true) :
    ∃ t : State, exec .frameFromStatus s = .next t ∧ exec .frameFromStatus (s.setCrcAcc v) = .next t ∧
      t.regs.crcAcc = crc16 (Claims.bodyOf s.params 0x01#8 (channelList s.regs.curValues)) := by
  rw [exec_frameFromStatus, exec_frameFromStatus, State.setCrcAcc_curValues]
  exact frameEncode_overwrites_crcAcc s v rfl (show 4 ≤ 32 by decide) hp

end Sys2Proof.Machine

namespace Sys2Proof.Proofs

open Sys2Proof.Machine

/-- Settles O16: a register that changed is one that the command writes, and a step that runs no command waits or
answers the illegal opcode byte. -/
theorem eachRegisterHasOnlyItsWriters : Obligations.EachRegisterHasOnlyItsWriters := by
  unfold Obligations.EachRegisterHasOnlyItsWriters
  refine ⟨?writers, ?reset, ?noCommand⟩
  case writers =>
    intro i s t hexec
    have hwrites := exec_writes hexec
    generalize t.regs = regs at hwrites
    cases hwrites with
    | nothing => simp
    | crcAcc hi => exact ⟨fun _ => hi, by simp⟩
    | txSeq | link | irq | initState => simp
  case reset =>
    intro s t hexec
    cases exec_inv hexec
    rfl
  case noCommand =>
    rintro s t hstep (hwait | ⟨op, rest, hillegal⟩)
    · rw [step_of_decode_incomplete hwait] at hstep
      cases hstep
      rfl
    · rw [step_of_decode_illegal hillegal] at hstep
      cases hstep
      rfl

/-- Settles O31: by induction on the commands between, CRC_ACC folds the bytes of the CRC_UPDATEs; a frame command
starts the fold again. -/
theorem hostCrcNeedsNoFrameCommandBetween : Obligations.HostCrcNeedsNoFrameCommandBetween := by
  unfold Obligations.HostCrcNeedsNoFrameCommandBetween
  refine ⟨fun commands s t hcommands hrun => ?_, frameFromStatus_overwrites_crcAcc,
    fun s v st vals hp hst hn => frameEncode_overwrites_crcAcc s v ((legalFrameStatus_iff_toNat st).2 hst) hn hp⟩
  rw [runCommands_cons_next (exec_crcReset s)] at hrun
  have hacc : t.regs.crcAcc = crc16 (Claims.updateBytes commands) :=
    runCommands_crcAcc_of_not_restarts hcommands hrun
  refine ⟨hacc, ?_⟩
  rw [← hacc, ← be16_eq_big2]
  exact answers_of_exec_ok (exec_crcRead t)

/-- Settles O53: a power-on leaves an empty command port, so the next command delivered stands at its head. -/
theorem powerOnDiscardsAPartialCommand : Obligations.PowerOnDiscardsAPartialCommand := by
  unfold Obligations.PowerOnDiscardsAPartialCommand
  intro s i rest _ _ hi
  have hport : (s.powerOn.deliver (encode i ++ rest)).cmdPort = encode i ++ rest := by
    rw [State.deliver_cmdPort, State.powerOn_cmdPort, List.nil_append]
  refine ⟨s.powerOn_regs, ?_, ?_⟩
  · rw [State.powerOn_rspPort]
    exact Nat.zero_le _
  · rw [step_of_encode hi hport, State.deliver_setCmdPort]
    rfl

end Sys2Proof.Proofs
end

section
/-! The command set as bytes (30_encoding.md): the round trip in both directions, the opcode map, and what bytes that have
not arrived yet can change. -/

namespace Sys2Proof.Machine

/-! ### The opcode is the first byte (R60, R65) -/

theorem encode_eq_opcode_cons (i : Instr) : encode i = Claims.byte (Claims.opcodeOf i) :: (encode i).tail := by
  cases i <;> rfl

theorem byte_opcodeOf_toNat (i : Instr) : (Claims.byte (Claims.opcodeOf i)).toNat = Claims.opcodeOf i := by
  cases i <;> rfl

theorem decode_illegal_iff_unassigned (op : Byte) (rest : List Byte) :
    decode (op :: rest) = .illegalCommand op rest ↔ Claims.Unassigned op :=
  ⟨fun h => formatOf_eq_none_iff.mp (decode_illegal_inv h).2,
    fun h => decode_of_unassigned (formatOf_eq_none_iff.mpr h) rest⟩

theorem opcodeOf_of_decode_command {op : Byte} {rest rest' : List Byte} {i : Instr}
    (h : decode (op :: rest) = .command i rest') : op.toNat = Claims.opcodeOf i := by
  obtain ⟨-, hbytes⟩ := decode_command_inv h
  rw [encode_eq_opcode_cons, List.cons_append] at hbytes
  obtain ⟨rfl, -⟩ := List.cons.inj hbytes
  exact byte_opcodeOf_toNat i

/-! ### Bytes that have not arrived yet (R66) -/

/-- While bytes are missing, those that have arrived are fewer than the length that they announce, if they announce one. -/
theorem decode_of_missing_bytes {i : Instr} {arrived missing : List Byte} (hi : i.wellFormed = true)
    (hencode : encode i = arrived ++ missing) (hmissing : missing ≠ []) : decode arrived = .incomplete := by
  rw [decode_incomplete_iff]
  intro n hn
  have hlength : n = Claims.lengthOf i := by
    have happend := commandLength_append hn missing
    rw [← hencode, commandLength_encode hi, Option.some.injEq] at happend
    exact happend.symm
  have hsum : Claims.lengthOf i = arrived.length + missing.length := by
    rw [← length_encode, hencode, List.length_append]
  have hpos := List.length_pos_iff.mpr hmissing
  omega

theorem decode_append_of_command {bytes rest : List Byte} {i : Instr} (h : decode bytes = .command i rest)
    (more : List Byte) : decode (bytes ++ more) = .command i (rest ++ more) := by
  obtain ⟨hi, rfl⟩ := decode_command_inv h
  rw [List.append_assoc, decode_encode_append hi]

theorem decode_append_of_illegal {bytes rest : List Byte} {op : Byte} (h : decode bytes = .illegalCommand op rest)
    (more : List Byte) : decode (bytes ++ more) = .illegalCommand op (rest ++ more) := by
  obtain ⟨rfl, hop⟩ := decode_illegal_inv h
  exact decode_of_unassigned hop (rest ++ more)

end Sys2Proof.Machine

namespace Sys2Proof.Proofs

open Sys2Proof.Machine

/-- Settles O2, from the one round trip per constructor. -/
theorem decodeUndoesEncode : Obligations.DecodeUndoesEncode := by
  unfold Obligations.DecodeUndoesEncode
  exact fun i rest hi => decode_encode_append hi rest

/-- Settles O3, from what each format has read when it has read a command. -/
theorem encodeUndoesDecode : Obligations.EncodeUndoesDecode := by
  unfold Obligations.EncodeUndoesDecode
  exact fun bytes i rest h => decode_command_inv h

/-- Settles O4: the first byte of an encoding is the command's opcode, and the bytes without a format are the unassigned
ones. -/
theorem opcodeByteSelectsTheCommand : Obligations.OpcodeByteSelectsTheCommand := by
  unfold Obligations.OpcodeByteSelectsTheCommand
  exact ⟨fun i => ⟨_, encode_eq_opcode_cons i⟩, decode_illegal_iff_unassigned,
    fun op rest i rest' h => opcodeOf_of_decode_command h, fun bytes rest op h => (decode_illegal_inv h).1⟩

/-- Settles O7: the bytes that have arrived are fewer than the command's length, and with the missing bytes the command
stands alone on the port. -/
theorem partialCommandHasNotStarted : Obligations.PartialCommandHasNotStarted := by
  unfold Obligations.PartialCommandHasNotStarted
  intro i arrived missing s hi hencode hmissing hport
  have hwait := decode_of_missing_bytes hi hencode hmissing
  have hwhole : (s.deliver missing).cmdPort = encode i ++ [] := by
    rw [State.deliver_cmdPort, hport, ← hencode, List.append_nil]
  refine ⟨hwait, step_of_decode_incomplete (hport.symm ▸ hwait), ?_⟩
  rw [step_of_encode hi hwhole, State.deliver_setCmdPort]
  rfl

/-- Settles O8: what decoded is an encoding or an unassigned byte, which decodes the same whatever follows it. -/
theorem laterBytesDoNotChangeACommand : Obligations.LaterBytesDoNotChangeACommand := by
  unfold Obligations.LaterBytesDoNotChangeACommand
  exact fun bytes more rest =>
    ⟨fun i h => decode_append_of_command h more, fun op h => decode_append_of_illegal h more⟩

/-- Settles O9: the encoding at the head of the port decodes to the command and the bytes behind it. -/
theorem stepRunsTheDecodedCommand : Obligations.StepRunsTheDecodedCommand := by
  unfold Obligations.StepRunsTheDecodedCommand
  exact fun i rest s hi hport => step_of_encode hi hport

/-- Settles O1: each word evaluated. -/
theorem specWordsDecodeToTheirCommands : Obligations.SpecWordsDecodeToTheirCommands := by
  unfold Obligations.SpecWordsDecodeToTheirCommands
  decide

/-- Settles O52: the text assembled and encoded by evaluation. -/
theorem crcBytesExpandsInOrder : Obligations.CrcBytesExpandsInOrder := by
  unfold Obligations.CrcBytesExpandsInOrder
  decide

end Sys2Proof.Proofs
end

section
/-! How a step and a command can end: never in a fault, in a refusal only where 42_frame.md R150 refuses the parameters, and
in an error only from the commands that 60_exceptions.md R232 lists; what a command does when it is repeated
(20_memory.md R48). -/

namespace Sys2Proof.Machine

/-! ### Every way a step can end -/

/-- The inversion lemma of `step`: it waits, answers an unassigned opcode byte, or runs a command. -/
theorem step_cases (s : State) :
    step s = .next s ∨
    (∃ rest, step s = .next ((s.setCmdPort rest).answered (.error .illegalCommand) s.regs)) ∨
    (∃ i rest, step s = exec i (s.setCmdPort rest)) := by
  cases h : decode s.cmdPort with
  | incomplete => exact .inl (step_of_decode_incomplete h)
  | illegalCommand op rest => exact .inr (.inl ⟨rest, step_of_decode_illegal h⟩)
  | command i rest => exact .inr (.inr ⟨i, rest, step_of_decode_command h⟩)

theorem exec_keeps_params {i : Instr} {s t : State} (hexec : exec i s = .next t) : t.params = s.params := by
  obtain ⟨payload, regs, rfl⟩ | ⟨e, rfl⟩ := exec_next_cases hexec <;> rfl

theorem step_keeps_params {s t : State} (hstep : step s = .next t) : t.params = s.params := by
  obtain h | ⟨rest, h⟩ | ⟨i, rest, h⟩ := step_cases s <;> rw [h] at hstep
  · cases hstep; rfl
  · cases hstep; rfl
  · exact (exec_keeps_params hstep).trans (s.setCmdPort_params rest)

/-! ### Faults and refusals (00_scope.md R4, 42_frame.md R150) -/

theorem exec_ne_fault (i : Instr) (s : State) (r : Fault) : exec i s ≠ .fault r := fun h => nomatch exec_inv h

theorem step_ne_fault (s : State) (r : Fault) : step s ≠ .fault r := by
  intro hstep
  obtain h | ⟨rest, h⟩ | ⟨i, rest, h⟩ := step_cases s <;> rw [h] at hstep
  · cases hstep
  · cases hstep
  · exact exec_ne_fault _ _ _ hstep

theorem exec_refused_inv {i : Instr} {s : State} {r : Refusal} (hexec : exec i s = .refused r) :
    r = .inadmissibleParameters ∧ admissible s.params = false ∧
      ((∃ raw, i = .scale raw) ∨ (∃ st vals, i = .frameEncode st vals) ∨ i = .frameFromStatus) := by
  cases exec_inv hexec with
  | scaleRefused raw hp => exact ⟨rfl, hp, .inl ⟨raw, rfl⟩⟩
  | frameRefused st vals _ _ hp => exact ⟨rfl, hp, .inr (.inl ⟨st, vals, rfl⟩)⟩
  | statusRefused hp => exact ⟨rfl, hp, .inr (.inr rfl)⟩

theorem exec_completes {i : Instr} {s : State} (hp : admissible s.params = true) : ∃ t, exec i s = .next t := by
  cases h : exec i s with
  | next t => exact ⟨t, rfl⟩
  | fault r => exact absurd h (exec_ne_fault i s r)
  | refused r =>
    obtain ⟨-, hp', -⟩ := exec_refused_inv h
    exact absurd (hp.symm.trans hp') nofun

theorem step_completes {s : State} (hp : admissible s.params = true) : ∃ t, step s = .next t := by
  obtain h | ⟨rest, h⟩ | ⟨i, rest, h⟩ := step_cases s <;> rw [h]
  · exact ⟨_, rfl⟩
  · exact ⟨_, rfl⟩
  · exact exec_completes hp

theorem runSteps_completes (n : Nat) {s : State} (hp : admissible s.params = true) : ∃ t, runSteps n s = .next t := by
  induction n generalizing s with
  | zero => exact ⟨s, rfl⟩
  | succ n ih =>
    obtain ⟨t, hstep⟩ := step_completes hp
    rw [runSteps_succ, hstep]
    exact ih (step_keeps_params hstep ▸ hp)

/-- Scaling is monotone, so the largest raw value decides whether every one fits. -/
theorem admissible_iff_forall (p : Params) :
    admissible p = true ↔ p.scaleDiv ≠ 0 ∧ ∀ raw, raw ≤ 65535 → raw / p.scaleDiv + p.scaleOffset ≤ 0xFFFF := by
  rw [admissible_iff, Nat.pos_iff_ne_zero]
  refine and_congr_right fun _ => ⟨fun hmax raw hraw => ?_, fun h => h 65535 (Nat.le_refl _)⟩
  exact (Nat.add_le_add_right (Nat.div_le_div_right hraw) _).trans hmax

/-! ### Which command reports which error (60_exceptions.md R232) -/

theorem exec_error_inv {i : Instr} {s t : State} {e : CommandError} (hexec : exec i s = .next t)
    (hport : t.rspPort = s.rspPort ++ [.error e]) :
    ((∃ reason, e = .decodeError reason) ∧ ∃ buf, i = .envDecode buf ∨ i = .process buf) ∨
    (e = .frameTooLarge ∧ ∃ st vals, i = .frameEncode st vals ∧ 32 < vals.length) ∨
    e = .illegalOperand := by
  cases exec_inv hexec with
  | envDecodeFail buf reason =>
    cases State.answered_rspPort_inj hport
    exact .inl ⟨⟨reason, rfl⟩, buf, .inl rfl⟩
  | processFail buf reason =>
    cases State.answered_rspPort_inj hport
    exact .inl ⟨⟨reason, rfl⟩, buf, .inr rfl⟩
  | frameTooLarge st vals _ hn =>
    cases State.answered_rspPort_inj hport
    exact .inr (.inl ⟨rfl, st, vals, rfl, hn⟩)
  | frameIllegal | irqIllegal | regReadReserved =>
    cases State.answered_rspPort_inj hport
    exact .inr (.inr rfl)
  | _ => cases State.answered_rspPort_inj hport

/-! ### Repeated commands (20_memory.md R48) -/

/-- From `t`, where a first run of the command from `s` ended, a second one leaves the same registers and answers the
same. -/
def Repeats (i : Instr) (s t : State) : Prop :=
  ∃ (r : Response) (u : State), exec i t = .next u ∧ u.regs = t.regs ∧ u.rspPort = s.rspPort ++ [r, r]

theorem repeats_of_exec {i : Instr} {s : State} {r : Response} {regs : Registers}
    (h : exec i (s.answered r regs) = .next ((s.answered r regs).answered r regs)) :
    Repeats i s (s.answered r regs) :=
  ⟨r, _, h, rfl, List.append_assoc s.rspPort [r] [r]⟩

/-- The commands that only read. -/
def OnlyReads (i : Instr) : Prop :=
  i = .crcRead ∨ (∃ x, i = .regRead x) ∨ (∃ q f, i = .envEncode q f) ∨ (∃ buf, i = .envDecode buf) ∨
    (∃ raw, i = .scale raw)

/-- The commands that overwrite what they write. -/
def Overwrites (i : Instr) : Prop :=
  i = .crcReset ∨ (∃ v, i = .setInitState v) ∨ (∃ st vals, i = .frameEncode st vals) ∨ i = .frameFromStatus ∨
    (∃ buf, i = .process buf)

/-- The commands that count. -/
def Counts (i : Instr) : Prop := (∃ f, i = .envEncodeNext f) ∨ i = .radioIrq 0x00#8 ∨ i = .radioIrq 0x01#8

theorem exec_repeats_of_onlyReads {i : Instr} {s t : State} (hi : OnlyReads i) (hexec : exec i s = .next t) :
    t.regs = s.regs ∧ Repeats i s t := by
  cases exec_inv hexec with
  | crcRead => exact ⟨rfl, repeats_of_exec (exec_crcRead _)⟩
  | envEncode seq f => exact ⟨rfl, repeats_of_exec (exec_envEncode _ seq f)⟩
  | envDecodeOk buf e h => exact ⟨rfl, repeats_of_exec (exec_envDecode_ok _ h)⟩
  | envDecodeFail buf reason h => exact ⟨rfl, repeats_of_exec (exec_envDecode_fail _ h)⟩
  | scaleOk raw hp => exact ⟨rfl, repeats_of_exec (exec_scale (s.answered _ _) hp raw)⟩
  | regReadOk index name h => exact ⟨rfl, repeats_of_exec (exec_regRead_ok _ h)⟩
  | regReadReserved index h => exact ⟨rfl, repeats_of_exec (exec_regRead_reserved _ h)⟩
  | _ => simp [OnlyReads] at hi

/-- The second time the id is LAST_SEQ itself, so it counts as no loss. -/
theorem received_received (r : Registers) (seq : Word) (f : ChannelFrame) :
    (r.received seq f).received seq f = r.received seq f := by
  have hmissed : ((r.received seq f).received seq f).missedMsg = (r.received seq f).missedMsg :=
    if_neg (BitVec.lt_irrefl seq)
  exact congrArg (fun missed => { r.received seq f with missedMsg := missed }) hmissed

theorem exec_repeats_of_overwrites {i : Instr} {s t : State} (hi : Overwrites i) (hexec : exec i s = .next t) :
    Repeats i s t := by
  cases exec_inv hexec with
  | crcReset => exact repeats_of_exec (exec_crcReset _)
  | setInitState v => exact repeats_of_exec (exec_setInitState _ v)
  | frameIllegal st vals h => exact repeats_of_exec (buildFrame_illegal _ h vals)
  | frameTooLarge st vals h hn => exact repeats_of_exec (buildFrame_tooLarge _ h hn)
  | frameOk st vals h hn hp => exact repeats_of_exec (buildFrame_ok (s.answered _ _) h hn hp)
  | statusOk hp =>
    exact repeats_of_exec (buildFrame_ok (s.answered _ _) (st := 0x01#8) rfl (vals := channelList s.regs.curValues)
      (show 4 ≤ 32 by decide) hp)
  | processOk buf seq f h =>
    refine repeats_of_exec ((exec_process_ok _ h).trans ?_)
    rw [State.answered_regs, received_received]
  | processFail buf reason h => exact repeats_of_exec (exec_process_fail _ h)
  | _ => simp [Overwrites] at hi

theorem word_add_one_ne (v : Word) : v + 1 ≠ v := by
  intro h
  have hnat := congrArg BitVec.toNat (word_add_one v ▸ h)
  rw [BitVec.toNat_ofNat] at hnat
  omega

theorem exec_changes_regs_of_counts {i : Instr} {s t : State} (hi : Counts i) (hexec : exec i s = .next t) :
    t.regs ≠ s.regs := by
  cases exec_inv hexec with
  | envEncodeNext f => exact fun h => word_add_one_ne _ (congrArg Registers.txSeq h)
  | irqSpawned => exact fun h => word_add_one_ne _ (congrArg Registers.irqCount h)
  | irqQueueFull => exact fun h => word_add_one_ne _ (congrArg Registers.irqCount h)
  | irqIllegal flag h0 h1 => simp [Counts, h0, h1] at hi
  | _ => simp [Counts] at hi

end Sys2Proof.Machine

namespace Sys2Proof.Proofs

open Sys2Proof.Machine

/-- Settles O10, by induction on the number of steps: a step completes and leaves the parameters. -/
theorem noRunOfTheBlockStops : Obligations.NoRunOfTheBlockStops := by
  unfold Obligations.NoRunOfTheBlockStops
  exact fun s hp n => runSteps_completes n hp

/-- Settles O11: no branch of a command's inversion lemma ends in a fault. -/
theorem noResultIsOutOfRange : Obligations.NoResultIsOutOfRange := by
  unfold Obligations.NoResultIsOutOfRange
  exact fun s r => ⟨step_ne_fault s r, fun i => exec_ne_fault i s r⟩

/-- Settles O12: scaling is monotone, and only the three commands that scale have a branch that refuses. -/
theorem inadmissibleParametersAreRefused : Obligations.InadmissibleParametersAreRefused := by
  unfold Obligations.InadmissibleParametersAreRefused
  refine ⟨admissible_iff_forall, fun s raw st vals hp hst hn => ⟨?_, ?_, ?_⟩, fun i s r => exec_refused_inv⟩
  · exact exec_scale_refused s hp raw
  · exact buildFrame_refused s ((legalFrameStatus_iff_toNat st).mpr hst) hn hp
  · exact buildFrame_refused s (st := 0x01#8) rfl (vals := channelList s.regs.curValues) (show 4 ≤ 32 by decide) hp

/-- Settles O14: a status other than OK is the code of one error, and three kinds of branch answer an error. -/
theorem eachErrorComesFromItsCommands : Obligations.EachErrorComesFromItsCommands := by
  unfold Obligations.EachErrorComesFromItsCommands
  intro i s t r hexec hport
  cases r with
  | ok payload => simp [Response.bytes, statusOk]
  | error e =>
    obtain ⟨⟨reason, rfl⟩, hi⟩ | ⟨rfl, hi⟩ | rfl := exec_error_inv hexec hport
    · simp [Response.bytes, CommandError.code, hi]
    · simp [Response.bytes, CommandError.code, hi]
    · simp [Response.bytes, CommandError.code]

/-- Settles O17: each command's closed form again, from the state that it left. -/
theorem repeatedCommands : Obligations.RepeatedCommands := by
  unfold Obligations.RepeatedCommands
  refine ⟨fun i s t hexec hi => ?reads, fun i s t hexec hi => exec_repeats_of_overwrites hi hexec,
    fun i s t u hexec hexec' hi => ⟨exec_changes_regs_of_counts hi hexec, exec_changes_regs_of_counts hi hexec'⟩⟩
  case reads =>
    obtain ⟨hregs, hrepeats⟩ := exec_repeats_of_onlyReads hi hexec
    rw [Repeats, hregs] at hrepeats
    exact ⟨hregs, hrepeats⟩

end Sys2Proof.Proofs
end

section
/-! The invariant of the block (Sys2Proof/Safety.lean): every response that a command or an unassigned byte answers is legal,
a frame among them by its shape and its CRC (42_frame.md R155, R157). -/

namespace Sys2Proof.Machine

/-! ### Payloads (30_encoding.md R67) -/

theorem decodedPayload_length (e : Envelope) : (decodedPayload e).length = 13 := by
  obtain ⟨seq, ⟨f⟩⟩ := e
  rfl

theorem envelopePayload_envelopeEncode (seq : Word) (f : ChannelFrame) :
    envelopePayload (0x0D#8 :: envelopeEncode ⟨seq, .channelValues f⟩) = true := rfl

theorem ok_legal_of_length {sync : Byte} {payload : List Byte}
    (h : payload.length = 0 ∨ payload.length = 2 ∨ payload.length = 4 ∨ payload.length = 13) :
    (Response.ok payload).legal sync = true := by
  simp only [Response.legal, Bool.or_eq_true, beq_iff_eq]
  tauto

theorem ok_legal_of_envelope {sync : Byte} {payload : List Byte} (h : envelopePayload payload = true) :
    (Response.ok payload).legal sync = true := by
  simp only [Response.legal, h, Bool.or_true, Bool.true_or]

theorem ok_legal_of_frame {sync : Byte} {payload : List Byte} (h : framePayload sync payload = true) :
    (Response.ok payload).legal sync = true := by
  simp only [Response.legal, h, Bool.or_true]

/-- The frame of R154 has the shape that a host can check: its lengths agree, and its last two bytes are the CRC of the
others. -/
theorem framePayload_plainBody (p : Params) {st : Byte} (hst : legalFrameStatus st = true) {vals : List Half}
    (hn : vals.length ≤ 32) :
    framePayload p.syncByte (BitVec.ofNat 8 (5 + 2 * vals.length) ::
      (plainBody p st vals ++ be16 (crc16 (plainBody p st vals)))) = true := by
  have hlength := length_plainBody p st vals
  have hcount : (BitVec.ofNat 8 vals.length).toNat = vals.length := by rw [BitVec.toNat_ofNat]; omega
  rw [legalFrameStatus_iff] at hst
  simp only [plainBody, List.length_cons] at hlength ⊢
  generalize (vals.flatMap fun raw => be16 (BitVec.ofNat 16 (raw.toNat / p.scaleDiv + p.scaleOffset))) = values
    at hlength ⊢
  have hvalues : 2 * vals.length = values.length := by omega
  have hsize : 5 + values.length < 256 := by omega
  simp [framePayload, hcount, hst, hn, hvalues, hsize]

/-! ### Every response is legal -/

theorem error_legal {sync : Byte} {e : CommandError} (h : e ≠ .encodeOverflow) : (Response.error e).legal sync = true := by
  simpa [Response.legal] using h

/-- What a command adds to a block that meets the invariant: one response more, a legal one. -/
theorem exec_answers_legal {i : Instr} {s t : State} (hexec : exec i s = .next t) :
    ∃ r : Response, t.rspPort = s.rspPort ++ [r] ∧ r.legal s.params.syncByte = true := by
  cases exec_inv hexec with
  | crcReset | crcUpdate | processOk | irqSpawned | irqQueueFull | setInitState =>
    exact ⟨_, rfl, ok_legal_of_length (.inl rfl)⟩
  | crcRead | scaleOk => exact ⟨_, rfl, ok_legal_of_length (.inr (.inl rfl))⟩
  | regReadOk => exact ⟨_, rfl, ok_legal_of_length (.inr (.inr (.inl rfl)))⟩
  | envDecodeOk buf e => exact ⟨_, rfl, ok_legal_of_length (.inr (.inr (.inr (decodedPayload_length e))))⟩
  | envEncode | envEncodeNext => exact ⟨_, rfl, ok_legal_of_envelope (envelopePayload_envelopeEncode _ _)⟩
  | frameOk st vals hst hn => exact ⟨_, rfl, ok_legal_of_frame (framePayload_plainBody s.params hst hn)⟩
  | statusOk =>
    exact ⟨_, rfl, ok_legal_of_frame (framePayload_plainBody s.params (st := 0x01#8) rfl
      (vals := channelList s.regs.curValues) (show 4 ≤ 32 by decide))⟩
  | envDecodeFail | processFail | frameIllegal | frameTooLarge | irqIllegal | regReadReserved =>
    exact ⟨_, rfl, error_legal nofun⟩

theorem inv_of_answer {s t : State} {r : Response} (hinv : s.Inv) (hparams : t.params = s.params)
    (hport : t.rspPort = s.rspPort ++ [r]) (hlegal : r.legal s.params.syncByte = true) : t.Inv := by
  obtain ⟨hp, hport'⟩ := hinv
  rw [State.Inv, hparams, hport]
  exact ⟨hp, List.forall_mem_append.mpr ⟨hport', List.forall_mem_singleton.mpr hlegal⟩⟩

theorem exec_keeps_inv {i : Instr} {s t : State} (hinv : s.Inv) (hexec : exec i s = .next t) : t.Inv := by
  obtain ⟨r, hport, hlegal⟩ := exec_answers_legal hexec
  exact inv_of_answer hinv (exec_keeps_params hexec) hport hlegal

theorem inv_setCmdPort {s : State} (hinv : s.Inv) (bytes : List Byte) : (s.setCmdPort bytes).Inv := hinv

theorem step_keeps_inv {s t : State} (hinv : s.Inv) (hstep : step s = .next t) : t.Inv := by
  obtain h | ⟨rest, h⟩ | ⟨i, rest, h⟩ := step_cases s <;> rw [h] at hstep
  · cases hstep; exact hinv
  · cases hstep; exact inv_of_answer hinv rfl rfl (error_legal nofun)
  · exact exec_keeps_inv (inv_setCmdPort hinv rest) hstep

end Sys2Proof.Machine

namespace Sys2Proof.Proofs

open Sys2Proof.Machine

/-- Settles O18: a step adds nothing or one legal response, and leaves the parameters. -/
theorem everyStepKeepsTheInvariant : Obligations.EveryStepKeepsTheInvariant := by
  unfold Obligations.EveryStepKeepsTheInvariant
  exact fun s t => step_keeps_inv

/-- Settles O19: the default parameters are admissible, and the response port is empty. -/
theorem resetMeetsTheInvariant : Obligations.ResetMeetsTheInvariant := by
  unfold Obligations.ResetMeetsTheInvariant
  exact ⟨rfl, List.forall_mem_nil _⟩

/-- Settles O20: each register's reset value, and the wait on the empty port. -/
theorem resetClearsEveryRegister : Obligations.ResetClearsEveryRegister := by
  unfold Obligations.ResetClearsEveryRegister
  exact fun s => ⟨s.powerOn_regs, s.powerOn_cmdPort, rfl, rfl, rfl, rfl, rfl, rfl, rfl, rfl, rfl,
    step_of_decode_incomplete (congrArg decode s.powerOn_cmdPort)⟩

end Sys2Proof.Proofs
end

section
/-! The CRC as polynomial division over the field of two elements (40_crc.md §1): a round multiplies by X modulo
X^16 + X^12 + X^5 + 1, and the two bytes of a CRC cancel it. -/

namespace Sys2Proof.Machine

open Polynomial

/-! ### Bit vectors as polynomials -/

theorem polynomial_xor {w : Nat} (a b : BitVec w) :
    Claims.polynomial (a ^^^ b) = Claims.polynomial a + Claims.polynomial b := by
  rw [Claims.polynomial, Claims.polynomial, Claims.polynomial, ← Finset.sum_add_distrib]
  refine Finset.sum_congr rfl fun k _ => ?_
  rw [BitVec.getLsbD_xor]
  cases a.getLsbD k <;> cases b.getLsbD k <;> simp [CharTwo.add_self_eq_zero]

/-- A shift to the left is a multiplication by X, but for bit 15, which falls out. -/
theorem X_mul_polynomial (a : Half) :
    X * Claims.polynomial a = Claims.polynomial (a <<< 1) + if a.getLsbD 15 then X ^ 16 else 0 := by
  have hshift (k : Nat) (hk : k ∈ Finset.range 15) :
      (X * if a.getLsbD k then X ^ k else 0 : (ZMod 2)[X]) = if (a <<< 1).getLsbD (k + 1) then X ^ (k + 1) else 0 := by
    have hk : k < 15 := Finset.mem_range.mp hk
    have hbit : (a <<< 1).getLsbD (k + 1) = a.getLsbD k := by
      rw [BitVec.getLsbD_shiftLeft, decide_eq_true (by omega), decide_eq_false (by omega)]
      rfl
    rw [hbit, mul_ite, mul_zero, pow_succ']
  have hlow : (a <<< 1).getLsbD 0 = false := by simp
  rw [Claims.polynomial, Claims.polynomial, Finset.mul_sum, Finset.sum_range_succ _ 15, Finset.sum_range_succ' _ 15,
    Finset.sum_congr rfl hshift, hlow, mul_ite, mul_zero, ← pow_succ']
  simp

theorem polynomial_highByte (b : Byte) :
    Claims.polynomial (b.setWidth 16 <<< 8 : Half) = Claims.polynomial b * X ^ 8 := by
  simp [Claims.polynomial, Finset.sum_range_succ, add_mul, ← pow_add, ← pow_succ']

/-! ### The residue of the accumulator (R100, R101) -/

/-- The generator of the CRC. -/
noncomputable def generator : (ZMod 2)[X] := X ^ 16 + X ^ 12 + X ^ 5 + 1

theorem polynomial_crcPoly : Claims.polynomial Config.crcPoly = 1 + X ^ 5 + X ^ 12 := by
  simp [Claims.polynomial, Config.crcPoly, Finset.sum_range_succ]

theorem X_pow_add_polynomial_crcPoly : X ^ 16 + Claims.polynomial Config.crcPoly = generator := by
  rw [polynomial_crcPoly, generator]
  ring

/-- The residue of a polynomial modulo the generator. -/
noncomputable def residue : (ZMod 2)[X] →+* AdjoinRoot generator := AdjoinRoot.mk generator

/-- The bit that falls out of the accumulator comes back as CRC_POLY. -/
theorem residue_X_pow_sixteen : residue (X ^ 16) = residue (Claims.polynomial Config.crcPoly) :=
  AdjoinRoot.mk_eq_mk.mpr (by rw [CharTwo.sub_eq_add, X_pow_add_polynomial_crcPoly])

theorem residue_crcRound (a : Half) :
    residue (Claims.polynomial (crcRound a)) = residue (X * Claims.polynomial a) := by
  rw [X_mul_polynomial, crcRound, map_add]
  by_cases hbit : a.getLsbD 15 = true
  · rw [if_pos hbit, if_pos hbit, polynomial_xor, map_add, residue_X_pow_sixteen]
  · rw [if_neg hbit, if_neg hbit, map_zero, add_zero]

theorem residue_crcRounds (n : Nat) (a : Half) :
    residue (Claims.polynomial (crcRounds n a)) = residue (X ^ n * Claims.polynomial a) := by
  induction n generalizing a with
  | zero => rw [crcRounds, pow_zero, one_mul]
  | succ n ih => rw [crcRounds, ih, map_mul, residue_crcRound, ← map_mul, ← mul_assoc, pow_succ]

theorem residue_crcStep (acc : Half) (b : Byte) :
    residue (Claims.polynomial (crcStep acc b)) =
      residue (X ^ 8 * (Claims.polynomial acc + Claims.polynomial b * X ^ 8)) := by
  rw [crcStep, residue_crcRounds, polynomial_xor, polynomial_highByte]

/-- Each byte keeps the accumulator the residue of the message so far times X^16. -/
theorem residue_foldl_crcStep (bytes : List Byte) {acc : Half} {m : (ZMod 2)[X]}
    (h : residue (Claims.polynomial acc) = residue (m * X ^ 16)) :
    residue (Claims.polynomial (bytes.foldl crcStep acc)) =
      residue (bytes.foldl (fun m b => m * X ^ 8 + Claims.polynomial b) m * X ^ 16) := by
  induction bytes generalizing acc m with
  | nil => exact h
  | cons b bs ih =>
    refine ih ?_
    rw [residue_crcStep]
    simp only [map_mul, map_add, map_pow, h]
    ring

theorem polynomial_crcInit : Claims.polynomial Config.crcInit = 0 := by
  simp [Claims.polynomial, Config.crcInit]

theorem residue_crc16 (bytes : List Byte) :
    residue (Claims.polynomial (crc16 bytes)) = residue (Claims.message bytes * X ^ 16) :=
  residue_foldl_crcStep bytes (by rw [polynomial_crcInit, zero_mul])

/-! ### The CRC bytes cancel the CRC (R101) -/

/-- While no bit reaches bit 15, a round is a shift. -/
theorem crcRounds_of_lt {n : Nat} {a : Half} (h : a.toNat * 2 ^ n < 2 ^ 16) : crcRounds n a = a <<< n := by
  induction n generalizing a with
  | zero => rw [crcRounds, BitVec.shiftLeft_zero]
  | succ n ih =>
    have hpos : 1 ≤ 2 ^ n := Nat.one_le_two_pow
    rw [pow_succ', ← mul_assoc] at h
    have hdouble : a.toNat * 2 < 2 ^ 16 := lt_of_le_of_lt (Nat.le_mul_of_pos_right _ hpos) h
    have hbit : ¬ a.getLsbD 15 = true := by
      rw [getLsbD_fifteen_iff]
      omega
    have hshift : (a <<< 1).toNat = a.toNat * 2 := by
      rw [BitVec.toNat_shiftLeft, Nat.shiftLeft_eq, pow_one, Nat.mod_eq_of_lt hdouble]
    rw [crcRounds, crcRound, if_neg hbit, ih (hshift ▸ h), ← BitVec.shiftLeft_add, Nat.add_comm]

theorem crcRounds_zero (n : Nat) : crcRounds n 0#16 = 0#16 := by
  rw [crcRounds_of_lt (by simp), BitVec.zero_shiftLeft]

/-- The high byte fed back leaves the low byte, shifted into its place. -/
theorem crcStep_highByte (a : Half) :
    crcStep a (a.extractLsb' 8 8) = (a.extractLsb' 0 8).setWidth 16 <<< 8 := by
  have hxor : a ^^^ ((a.extractLsb' 8 8).setWidth 16 <<< 8) = (a.extractLsb' 0 8).setWidth 16 := by
    refine BitVec.eq_of_getLsbD_eq fun k hk => ?_
    simp only [BitVec.getLsbD_xor, BitVec.getLsbD_shiftLeft, BitVec.getLsbD_setWidth, BitVec.getLsbD_extractLsb', hk]
    by_cases hlow : k < 8
    · simp [hlow]
    · have hback : 8 + (k - 8) = k := by omega
      have hbyte : k - 8 < 8 := by omega
      have hhalf : k - 8 < 16 := by omega
      simp [hlow, hback, hbyte, hhalf]
  rw [crcStep, hxor, crcRounds_of_lt]
  have := (a.extractLsb' 0 8).isLt
  rw [BitVec.toNat_setWidth_of_le (by decide)]
  omega

theorem crcStep_self (b : Byte) : crcStep (b.setWidth 16 <<< 8) b = 0#16 := by
  rw [crcStep, BitVec.xor_self, crcRounds_zero]

theorem foldl_crcStep_be16 (a : Half) : (be16 a).foldl crcStep a = 0#16 := by
  rw [be16, List.foldl_cons, List.foldl_cons, List.foldl_nil, crcStep_highByte, crcStep_self]

end Sys2Proof.Machine

namespace Sys2Proof.Proofs

open Sys2Proof.Machine

/-- Settles O29, by induction on the bytes: the accumulator is the residue of the message so far times X^16. -/
theorem crcIsThePolynomialRemainder : Obligations.CrcIsThePolynomialRemainder := by
  unfold Obligations.CrcIsThePolynomialRemainder
  exact fun bytes => AdjoinRoot.mk_eq_mk.mp (residue_crc16 bytes).symm

/-- Settles O30: the first CRC byte leaves the second one alone in the accumulator, which the second one clears. -/
theorem crcOverItsOwnBytesIsZero : Obligations.CrcOverItsOwnBytesIsZero := by
  unfold Obligations.CrcOverItsOwnBytesIsZero
  intro bytes
  rw [crc16, List.foldl_append]
  exact foldl_crcStep_be16 (crc16 bytes)

end Sys2Proof.Proofs
end

section
/-! The link between two blocks (41_envelope.md §2, 43_link_status.md §1): envelopes with consecutive ids, what a sender
answers and what a receiver makes of them, and the interrupt counters. -/

namespace Sys2Proof.Machine

/-! ### Envelopes with consecutive ids -/

/-- Frames numbered one after the other from the id `first`, modulo 2^32. -/
def numbered (first : Nat) (frames : List ChannelFrame) : List (Word × ChannelFrame) :=
  frames.zipIdx.map fun (f, k) => (BitVec.ofNat 32 (first + k), f)

theorem numbered_cons (first : Nat) (f : ChannelFrame) (fs : List ChannelFrame) :
    numbered first (f :: fs) = (BitVec.ofNat 32 first, f) :: numbered (first + 1) fs := by
  simp only [numbered, List.zipIdx_cons', List.map_cons, List.map_map, Nat.add_zero]
  congr 2
  funext ⟨f, k⟩
  simp [Nat.add_comm, Nat.add_left_comm]

theorem word_eq_ofNat_toNat (v : Word) : v = BitVec.ofNat 32 v.toNat := by
  rw [BitVec.ofNat_toNat, BitVec.setWidth_eq]

/-! ### The sender (41_envelope.md R126) -/

/-- The response that carries an envelope. -/
def envelopeResponse (e : Word × ChannelFrame) : Response := .ok (0x0D#8 :: envelopeEncode ⟨e.1, .channelValues e.2⟩)

/-- Any number of ENV_ENCODE_NEXT, from the id in TX_SEQ. -/
theorem runCommands_envEncodeNext (frames : List ChannelFrame) {s : State} {first : Nat}
    (hfirst : s.regs.txSeq = BitVec.ofNat 32 first) :
    ∃ t, runCommands (frames.map Instr.envEncodeNext) s = .next t ∧
      t.regs = { s.regs with txSeq := BitVec.ofNat 32 (first + frames.length) } ∧
      t.rspPort = s.rspPort ++ (numbered first frames).map envelopeResponse := by
  induction frames generalizing s first with
  | nil => exact ⟨s, rfl, by rw [List.length_nil, Nat.add_zero, ← hfirst], (List.append_nil _).symm⟩
  | cons f fs ih =>
    have hexec := exec_envEncodeNext s f
    have hnext : s.regs.txSeq + 1 = BitVec.ofNat 32 (first + 1) := by rw [hfirst, BitVec.ofNat_add]; rfl
    obtain ⟨t, hrun, hregs, hport⟩ := ih (s := s.answered _ { s.regs with txSeq := s.regs.txSeq + 1 }) hnext
    refine ⟨t, (runCommands_cons_next hexec).trans hrun, ?_, ?_⟩
    · rw [hregs, List.length_cons, Nat.add_assoc, Nat.add_comm 1]
      rfl
    · rw [hport, State.answered_rspPort, List.append_assoc, numbered_cons, hfirst]
      rfl

/-! ### The receiver (43_link_status.md R181, R182) -/

theorem exec_process_encoded (s : State) (seq : Word) (f : ChannelFrame) :
    exec (.process (envelopeEncode ⟨seq, .channelValues f⟩)) s =
      .next (s.answered (.ok []) (s.regs.received seq f)) := by
  have hdecode := envelopeDecode_envelopeEncode ⟨seq, .channelValues f⟩ [] (Nat.zero_le _)
  rw [List.append_nil] at hdecode
  exact exec_process_ok s hdecode

/-- The registers after the envelopes, one after the other. -/
def Registers.receivedAll (r : Registers) (es : List (Word × ChannelFrame)) : Registers :=
  es.foldl (fun r e => r.received e.1 e.2) r

theorem runCommands_processAll (es : List (Word × ChannelFrame)) (s : State) :
    ∃ t, runCommands (Claims.processAll es) s = .next t ∧ t.regs = s.regs.receivedAll es := by
  induction es generalizing s with
  | nil => exact ⟨s, rfl, rfl⟩
  | cons e es ih =>
    obtain ⟨t, hrun, hregs⟩ := ih (s.answered (.ok []) (s.regs.received e.1 e.2))
    exact ⟨t, (runCommands_cons_next (exec_process_encoded s e.1 e.2)).trans hrun, hregs⟩

/-- An id at most one past LAST_SEQ skips none. -/
theorem received_of_le_succ {r : Registers} {seq : Word} (h : seq.toNat ≤ r.lastSeq.toNat + 1) (f : ChannelFrame) :
    r.received seq f = { r with lastSeq := seq, curValues := f } := by
  have hmissed : (r.received seq f).missedMsg = r.missedMsg := by
    rw [received_missedMsg]
    split
    · have hnone : seq.toNat - r.lastSeq.toNat - 1 = 0 := by omega
      rw [hnone, Nat.add_zero, Nat.mod_eq_of_lt r.missedMsg.isLt, ← word_eq_ofNat_toNat]
    · rfl
  exact congrArg (fun missed => { r with missedMsg := missed, lastSeq := seq, curValues := f }) hmissed

/-- The next id, which is 0 after the greatest one, is at most one more. -/
theorem ofNat_succ_toNat_le (n : Nat) : (BitVec.ofNat 32 (n + 1)).toNat ≤ (BitVec.ofNat 32 n).toNat + 1 := by
  rw [BitVec.toNat_ofNat, BitVec.toNat_ofNat]
  omega

/-- Consecutive ids skip none, whatever wraps: the receiver ends with the last id and the last values. -/
theorem receivedAll_numbered (frames : List ChannelFrame) (last : ChannelFrame) {r : Registers} {first : Nat}
    (h : (BitVec.ofNat 32 first).toNat ≤ r.lastSeq.toNat + 1) :
    r.receivedAll (numbered first (frames ++ [last])) =
      { r with lastSeq := BitVec.ofNat 32 (first + frames.length), curValues := last } := by
  induction frames generalizing r first with
  | nil => exact received_of_le_succ h last
  | cons f fs ih =>
    have hrest := ih (r := r.received (BitVec.ofNat 32 first) f) (ofNat_succ_toNat_le first)
    rw [List.cons_append, numbered_cons, Registers.receivedAll, List.foldl_cons]
    refine hrest.trans ?_
    rw [received_of_le_succ h, List.length_cons, Nat.add_assoc, Nat.add_comm 1]

/-- The sequential ids of R183, from any block that has heard the one before them. -/
theorem receivedAll_numbered_missedMsg (frames : List ChannelFrame) {r : Registers} {first : Nat}
    (h : (BitVec.ofNat 32 first).toNat ≤ r.lastSeq.toNat + 1) :
    (r.receivedAll (numbered first frames)).missedMsg = r.missedMsg := by
  rcases List.eq_nil_or_concat frames with rfl | ⟨fs, last, rfl⟩
  · rfl
  · rw [List.concat_eq_append, receivedAll_numbered fs last h]

/-- Rising ids: MISSED_MSG grows by the distance that LAST_SEQ moved less the envelopes that arrived. -/
theorem receivedAll_rising (es : List (Word × ChannelFrame)) {r : Registers}
    (h : List.IsChain (· < ·) (r.lastSeq :: es.map Prod.fst)) :
    (r.receivedAll es).missedMsg.toNat =
      (r.missedMsg.toNat + ((r.receivedAll es).lastSeq.toNat - r.lastSeq.toNat - es.length)) % 2 ^ 32 ∧
    r.lastSeq.toNat + es.length ≤ (r.receivedAll es).lastSeq.toNat := by
  induction es generalizing r with
  | nil =>
    have := r.missedMsg.isLt
    simp only [Registers.receivedAll, List.foldl_nil, List.length_nil]
    omega
  | cons e es ih =>
    rw [List.map_cons, List.isChain_cons_cons] at h
    obtain ⟨hlt, hchain⟩ := h
    have hlt : r.lastSeq.toNat < e.1.toNat := hlt
    obtain ⟨hmissed, hlast⟩ := ih (r := r.received e.1 e.2) hchain
    rw [received_missedMsg, if_pos hlt, BitVec.toNat_ofNat, Nat.mod_mod, Nat.mod_add_mod] at hmissed
    have hseq : (r.received e.1 e.2).lastSeq = e.1 := rfl
    have hall : r.receivedAll (e :: es) = (r.received e.1 e.2).receivedAll es := rfl
    rw [hseq] at hmissed hlast
    rw [hall, hmissed, List.length_cons]
    omega

/-! ### The interrupt counters (43_link_status.md R184, R185) -/

/-- The counters are in order, and none has decreased from `r` to `r'`. -/
def CountersRise (r r' : Registers) : Prop :=
  r'.missedIrq ≤ r'.irqCount ∧ r.irqCount ≤ r'.irqCount ∧ r.missedIrq ≤ r'.missedIrq

theorem CountersRise.refl {r : Registers} (h : r.missedIrq ≤ r.irqCount) : CountersRise r r :=
  ⟨h, BitVec.le_refl _, BitVec.le_refl _⟩

theorem exec_countersRise {i : Instr} {s t : State} (hexec : exec i s = .next t)
    (hwrap : s.regs.irqCount ≠ 0xFFFFFFFF#32) (hle : s.regs.missedIrq ≤ s.regs.irqCount) :
    CountersRise s.regs t.regs := by
  have hirq : s.regs.irqCount.toNat < 2 ^ 32 - 1 := by
    have := BitVec.toNat_ne_iff_ne.mpr hwrap
    have : (0xFFFFFFFF#32).toNat = 2 ^ 32 - 1 := rfl
    omega
  have hle : s.regs.missedIrq.toNat ≤ s.regs.irqCount.toNat := hle
  have hcount := word_add_one_toNat hirq
  have hmissed := word_add_one_toNat (Nat.lt_of_le_of_lt hle hirq)
  cases exec_inv hexec with
  | irqSpawned | irqQueueFull =>
    simp only [CountersRise, State.answered_regs, BitVec.le_def]
    omega
  | _ => exact .refl hle

theorem step_countersRise {s t : State} (hstep : step s = .next t) (hwrap : s.regs.irqCount ≠ 0xFFFFFFFF#32)
    (hle : s.regs.missedIrq ≤ s.regs.irqCount) : CountersRise s.regs t.regs := by
  obtain h | ⟨rest, h⟩ | ⟨i, rest, h⟩ := step_cases s <;> rw [h] at hstep
  · cases hstep; exact .refl hle
  · cases hstep; exact .refl hle
  · exact exec_countersRise (s := s.setCmdPort rest) hstep hwrap hle

end Sys2Proof.Machine

namespace Sys2Proof.Proofs

open Sys2Proof.Machine

/-- Settles O47: the sender's envelopes carry consecutive ids from TX_SEQ, which a matching receiver takes without a
skip. -/
theorem linkEndToEnd : Obligations.LinkEndToEnd := by
  unfold Obligations.LinkEndToEnd
  intro sender receiver frames last hmatch
  have hfirst := word_eq_ofNat_toNat sender.regs.txSeq
  obtain ⟨sent, hsend, hsent, hport⟩ := runCommands_envEncodeNext (frames ++ [last]) hfirst
  obtain ⟨received, hreceive, hreceived⟩ :=
    runCommands_processAll (numbered sender.regs.txSeq.toNat (frames ++ [last])) receiver
  rw [receivedAll_numbered frames last (hfirst ▸ hmatch)] at hreceived
  have hhanded : ((sent.rspPort.drop sender.rspPort.length).map fun r => Instr.process (r.bytes.drop 2)) =
      Claims.processAll (numbered sender.regs.txSeq.toNat (frames ++ [last])) := by
    rw [hport, List.drop_left, List.map_map]
    rfl
  refine ⟨sent, received, hsend, hhanded ▸ hreceive, hreceived, ?_⟩
  rw [hsent, hreceived, List.length_append]
  exact ofNat_succ_toNat_le _

/-- Settles O35, by induction on the frames. -/
theorem transmittedIdsAreConsecutive : Obligations.TransmittedIdsAreConsecutive := by
  unfold Obligations.TransmittedIdsAreConsecutive
  intro frames s
  obtain ⟨t, hrun, hregs, hport⟩ := runCommands_envEncodeNext frames (word_eq_ofNat_toNat s.regs.txSeq)
  refine ⟨t, hrun, hregs, ?_⟩
  rw [hport, List.drop_left, numbered, List.map_map, List.map_map]
  rfl

/-- Settles O37: both directions of the codec, byte for byte. -/
theorem envelopeRoundTrip : Obligations.EnvelopeRoundTrip := by
  unfold Obligations.EnvelopeRoundTrip
  constructor
  · intro e
    have hdecode := envelopeDecode_envelopeEncode e [] (Nat.zero_le _)
    rwa [List.append_nil] at hdecode
  · intro buf hmin hmax hdisc
    obtain ⟨s0, s1, s2, s3, d, a0, a1, b0, b1, c0, c1, d0, d1, pad, rfl⟩ := exists_thirteen hmin
    have hpad : pad.length ≤ 19 := by simp only [List.length_cons] at hmax; omega
    obtain rfl : d = 0x00#8 := Option.some.inj hdisc
    exact ⟨_, envelopeDecode_of_bytes s0 s1 s2 s3 a0 a1 b0 b1 c0 c1 d0 d1 pad hpad,
      envelopeEncode_of_bytes s0 s1 s2 s3 a0 a1 b0 b1 c0 c1 d0 d1⟩

/-- Settles O45, by induction on the envelopes. -/
theorem skippedIdsAreCounted : Obligations.SkippedIdsAreCounted := by
  unfold Obligations.SkippedIdsAreCounted
  intro es s t hchain hrun
  obtain ⟨u, hrun', hregs⟩ := runCommands_processAll es s
  cases hrun.symm.trans hrun'
  rw [hregs]
  exact receivedAll_rising es hchain

/-- Settles O46: one id skipped of the first five, none of sequential ones. -/
theorem lossAccountingFromReset : Obligations.LossAccountingFromReset := by
  unfold Obligations.LossAccountingFromReset
  refine ⟨fun f1 f2 f4 f5 => ?gap, fun frames first hfirst _ => ?sequential, ?values⟩
  case gap =>
    obtain ⟨t, hrun, hregs⟩ := runCommands_processAll [(1#32, f1), (2#32, f2), (4#32, f4), (5#32, f5)] State.reset
    have hchain : List.IsChain (· < ·) [0#32, 1#32, 2#32, 4#32, 5#32] := by decide
    obtain ⟨hmissed, -⟩ :=
      receivedAll_rising [(1#32, f1), (2#32, f2), (4#32, f4), (5#32, f5)] (r := State.reset.regs) hchain
    exact ⟨t, hrun, BitVec.eq_of_toNat_eq (hregs ▸ hmissed)⟩
  case sequential =>
    have hmatch : (BitVec.ofNat 32 first).toNat ≤ State.reset.regs.lastSeq.toNat + 1 :=
      (Nat.mod_le first _).trans hfirst
    obtain ⟨t, hrun, hregs⟩ := runCommands_processAll (numbered first frames) State.reset
    exact ⟨t, hrun, hregs ▸ receivedAll_numbered_missedMsg frames hmatch⟩
  case values =>
    obtain ⟨t, hrun, hregs⟩ :=
      runCommands_processAll (numbered 0 (List.replicate 3 ⟨1000#16, 2000#16, 3000#16, 4000#16⟩)) State.reset
    exact ⟨t, hrun, hregs ▸ rfl, hregs ▸ rfl, hregs ▸ rfl⟩

/-- Settles O49: RADIO_IRQ alone writes the counters, and each interrupt counts in IRQ_COUNT. -/
theorem missedInterruptsStayBelowInterrupts : Obligations.MissedInterruptsStayBelowInterrupts := by
  unfold Obligations.MissedInterruptsStayBelowInterrupts
  exact fun s t => step_countersRise

end Sys2Proof.Proofs
end

section
/-! The shape of every frame (42_frame.md R157, R158), and the default scaling (R150). -/

namespace Sys2Proof.Machine

/-! ### The shape of a frame (R157, R158) -/

/-- An OK response of FRAME_ENCODE has passed both checks of its operands. -/
theorem frameEncode_answered_legal {s t : State} {st len : Byte} {vals : List Half} {r : Response} {frame : List Byte}
    (hexec : exec (.frameEncode st vals) s = .next t) (hport : t.rspPort = s.rspPort ++ [r])
    (hbytes : r.bytes = 0x00#8 :: len :: frame) : (st = 0x01#8 ∨ st = 0x81#8) ∧ vals.length ≤ 32 := by
  cases exec_inv hexec with
  | frameIllegal | frameTooLarge =>
    cases State.answered_rspPort_inj hport
    cases hbytes
  | frameOk _ _ hst hn => exact ⟨(legalFrameStatus_iff st).mp hst, hn⟩

theorem length_bodyOf (p : Params) (st : Byte) (vals : List Half) :
    (Claims.bodyOf p st vals).length = 3 + 2 * vals.length := by
  rw [← plainBody_eq_bodyOf, length_plainBody]

theorem byte_toNat {n : Nat} (h : n < 256) : (Claims.byte n).toNat = n := Nat.mod_eq_of_lt h

/-- The five facts of R157 and R158 about a frame that FRAME_ENCODE answered. -/
theorem frameEncode_shape {s t : State} {st len : Byte} {vals : List Half} {r : Response} {frame : List Byte}
    (hexec : exec (.frameEncode st vals) s = .next t) (hport : t.rspPort = s.rspPort ++ [r])
    (hbytes : r.bytes = 0x00#8 :: len :: frame) :
    frame.length = 3 + 2 * vals.length + 2 ∧ len.toNat = frame.length ∧ frame[0]? = some s.params.syncByte ∧
      frame[1]? = some st ∧ (st = 0x01#8 ∨ st = 0x81#8) ∧ frame[2]? = some (Claims.byte vals.length) := by
  obtain ⟨hst, hn⟩ := frameEncode_answered_legal hexec hport hbytes
  obtain ⟨hframe, -⟩ := frameEncode_answered_inv hexec hport hbytes
  obtain ⟨rfl, rfl⟩ := List.cons.inj hframe
  have hlength : (Claims.bodyOf s.params st vals ++
      Claims.big2 (crc16 (Claims.bodyOf s.params st vals)).toNat).length = 3 + 2 * vals.length + 2 := by
    rw [List.length_append, length_bodyOf]
    rfl
  refine ⟨hlength, ?_, rfl, rfl, hst, rfl⟩
  rw [hlength, byte_toNat (by omega)]
  omega

/-! ### The default scaling (R150) -/

theorem scaled_default (raw : Half) :
    ∃ v : Half, scaled Params.default raw = some v ∧ v.toNat = raw.toNat / 10 + 0x2214 :=
  ⟨_, scaled_of_admissible (p := Params.default) rfl raw, Nat.mod_eq_of_lt (scaled_lt (p := Params.default) rfl raw)⟩

end Sys2Proof.Machine

namespace Sys2Proof.Proofs

open Sys2Proof.Machine

/-- Settles O43: FRAME_ENCODE's frame is its body and two CRC bytes, and FRAME_FROM_STATUS is FRAME_ENCODE of status 0x01
and four values. -/
theorem everyFrameHasItsShape : Obligations.EveryFrameHasItsShape := by
  unfold Obligations.EveryFrameHasItsShape
  intro i s t r len frame hexec hport hbytes
  constructor
  · rintro vals st rfl
    exact frameEncode_shape hexec hport hbytes
  · rintro rfl
    rw [exec_frameFromStatus] at hexec
    obtain ⟨hlength, hlen, hsync, hstatus, -, hcount⟩ := frameEncode_shape hexec hport hbytes
    exact ⟨hlength, hlen, hsync, hstatus, hcount⟩

/-- Settles O39: the constants evaluated, and the bounds of a raw value carried through the division by ten. -/
theorem defaultScalingMeetsItsProperties : Obligations.DefaultScalingMeetsItsProperties := by
  unfold Obligations.DefaultScalingMeetsItsProperties
  refine ⟨rfl, rfl, rfl, rfl, rfl, fun raw => ?range, rfl, rfl, rfl⟩
  case range =>
    obtain ⟨v, hv, hnat⟩ := scaled_default raw
    refine ⟨v, hv, by omega, by omega, by omega, by omega, ?_, ?_, ?_⟩
    · rintro rfl; rw [hnat]; decide
    · rintro rfl; rw [hnat]; decide
    · rintro rfl; exact hnat

end Sys2Proof.Proofs
end

section
/-! Several hosts (20_memory.md §5): the orders of acceptance that `interleave` gives, and a FRAME_FROM_STATUS racing with a
PROCESS. -/

namespace Sys2Proof.Machine

/-! ### The orders of acceptance (R51) -/

/-- A turn of host `k`: it has a command left, which comes first, and the other turns order what is left. -/
theorem interleave_cons_eq_some {k : Nat} {turns : List Nat} {hosts : List (List Instr)} {order : List Instr}
    (h : interleave (k :: turns) hosts = some order) :
    ∃ i left order', hosts[k]? = some (i :: left) ∧ interleave turns (hosts.set k left) = some order' ∧
      order = i :: order' := by
  unfold interleave at h
  split at h
  · next i left hk =>
    obtain ⟨order', hrest, horder⟩ := Option.map_eq_some_iff.mp h
    exact ⟨i, left, order', hk, hrest, horder.symm⟩
  · cases h

/-- A turn of a host among the others: those before it, its commands, those after it. -/
theorem exists_hosts_of_turn {k : Nat} {hosts : List (List Instr)} {i : Instr} {left : List Instr}
    (h : hosts[k]? = some (i :: left)) :
    ∃ before after, hosts = before ++ (i :: left) :: after ∧ hosts.set k left = before ++ left :: after := by
  obtain ⟨hk, hget⟩ := List.getElem?_eq_some_iff.mp h
  obtain ⟨before, after, hhosts, -, hset⟩ := List.exists_of_set (a' := left) hk
  exact ⟨before, after, hget ▸ hhosts, hset⟩

theorem interleave_nil_eq_some {hosts : List (List Instr)} {order : List Instr} (h : interleave [] hosts = some order) :
    (∀ l ∈ hosts, l = []) ∧ order = [] := by
  unfold interleave at h
  split at h
  · next hall =>
    refine ⟨fun l hl => List.isEmpty_iff.mp (List.all_eq_true.mp hall l hl), ?_⟩
    cases h; rfl
  · cases h

/-- Each host's commands stand in the order in which the host gives them. -/
theorem sublist_of_interleave {turns : List Nat} {hosts : List (List Instr)} {order : List Instr}
    (h : interleave turns hosts = some order) : ∀ l ∈ hosts, List.Sublist l order := by
  induction turns generalizing hosts order with
  | nil =>
    obtain ⟨hempty, -⟩ := interleave_nil_eq_some h
    exact fun l hl => hempty l hl ▸ List.nil_sublist order
  | cons k turns ih =>
    obtain ⟨i, left, order', hk, hrest, rfl⟩ := interleave_cons_eq_some h
    obtain ⟨before, after, rfl, hset⟩ := exists_hosts_of_turn hk
    have hothers := hset ▸ ih hrest
    simp only [List.forall_mem_append, List.forall_mem_cons] at hothers ⊢
    obtain ⟨hbefore, hleft, hafter⟩ := hothers
    exact ⟨fun l hl => (hbefore l hl).cons i, hleft.cons_cons i, fun l hl => (hafter l hl).cons i⟩

/-- Every command of every host is accepted once, and no other. -/
theorem perm_of_interleave {turns : List Nat} {hosts : List (List Instr)} {order : List Instr}
    (h : interleave turns hosts = some order) : List.Perm order hosts.flatten := by
  induction turns generalizing hosts order with
  | nil =>
    obtain ⟨hempty, rfl⟩ := interleave_nil_eq_some h
    rw [List.flatten_eq_nil_iff.mpr hempty]
  | cons k turns ih =>
    obtain ⟨i, left, order', hk, hrest, rfl⟩ := interleave_cons_eq_some h
    obtain ⟨before, after, rfl, hset⟩ := exists_hosts_of_turn hk
    have hothers := hset ▸ ih hrest
    simp only [List.flatten_append, List.flatten_cons, List.cons_append] at hothers ⊢
    exact (hothers.cons i).trans List.perm_middle.symm

/-! ### A frame and a PROCESS (70_reset_and_hazards.md §2) -/

theorem exec_process_rawEnvelope (s : State) {e : Claims.RawEnvelope} (hpad : e.pad.length ≤ 19) :
    ∃ regs, exec (.process e.bytes) s = .next (s.answered (.ok []) regs) ∧ regs.curValues = e.values :=
  ⟨_, exec_process_ok s (envelopeDecode_rawEnvelope e hpad), (values_rawEnvelope e).symm⟩

/-- The frame shows the channel values as they stand when the command runs, and leaves them. -/
theorem exec_frameFromStatus_answers {s : State} (hp : admissible s.params = true) :
    ∃ (r : Response) (regs : Registers), exec .frameFromStatus s = .next (s.answered r regs) ∧
      r.bytes = 0x00#8 :: Claims.framePayloadOf s.params 0x01#8 (channelList s.regs.curValues) ∧
      regs.curValues = s.regs.curValues := by
  obtain ⟨r, hbytes, hexec⟩ := frameFromStatus_answers hp
  exact ⟨r, _, hexec, hbytes, rfl⟩

/-- PROCESS first: the frame shows the envelope's values. -/
theorem race_process_first {s t : State} {e : Claims.RawEnvelope} (hp : admissible s.params = true)
    (hpad : e.pad.length ≤ 19) (hrun : runCommands [.process e.bytes, .frameFromStatus] s = .next t) :
    t.regs.curValues = e.values ∧ ∃ r ∈ t.rspPort.drop s.rspPort.length,
      r.bytes = 0x00#8 :: Claims.framePayloadOf s.params 0x01#8 (channelList e.values) := by
  obtain ⟨regs, hprocess, hvalues⟩ := exec_process_rawEnvelope s hpad
  obtain ⟨r, regs', hframe, hbytes, hkept⟩ := exec_frameFromStatus_answers (s := s.answered (.ok []) regs) hp
  rw [runCommands_cons_next hprocess, runCommands_cons_next hframe, runCommands_nil] at hrun
  cases hrun
  rw [State.answered_regs, hvalues] at hbytes hkept
  refine ⟨hkept, r, ?_, hbytes⟩
  rw [State.answered_rspPort, State.answered_rspPort, List.append_assoc, List.drop_left]
  exact List.mem_append_right _ (List.mem_singleton_self r)

/-- FRAME_FROM_STATUS first: the frame shows the values before the PROCESS. -/
theorem race_frame_first {s t : State} {e : Claims.RawEnvelope} (hp : admissible s.params = true)
    (hpad : e.pad.length ≤ 19) (hrun : runCommands [.frameFromStatus, .process e.bytes] s = .next t) :
    t.regs.curValues = e.values ∧ ∃ r ∈ t.rspPort.drop s.rspPort.length,
      r.bytes = 0x00#8 :: Claims.framePayloadOf s.params 0x01#8 (channelList s.regs.curValues) := by
  obtain ⟨r, regs', hframe, hbytes, -⟩ := exec_frameFromStatus_answers hp
  obtain ⟨regs, hprocess, hvalues⟩ := exec_process_rawEnvelope (s.answered r regs') hpad
  rw [runCommands_cons_next hframe, runCommands_cons_next hprocess, runCommands_nil] at hrun
  cases hrun
  refine ⟨hvalues, r, ?_, hbytes⟩
  rw [State.answered_rspPort, State.answered_rspPort, List.append_assoc, List.drop_left]
  exact List.mem_append_left _ (List.mem_singleton_self r)

end Sys2Proof.Machine

namespace Sys2Proof.Proofs

open Sys2Proof.Machine

/-- Settles O22, by induction on the turns: a turn takes the first command of one host and leaves the others alone. -/
theorem acceptanceKeepsEachHostsOrder : Obligations.AcceptanceKeepsEachHostsOrder := by
  unfold Obligations.AcceptanceKeepsEachHostsOrder
  exact fun turns hosts order h => ⟨sublist_of_interleave h, perm_of_interleave h⟩

/-- Settles O23: two commands have two orders, and each shows the channel values of one moment. -/
theorem racingFrameIsOldOrNewNeverMixed : Obligations.RacingFrameIsOldOrNewNeverMixed := by
  unfold Obligations.RacingFrameIsOldOrNewNeverMixed
  refine ⟨fun s t e turns order hp hpad horder hrun => ?_, fun e => ⟨rfl, rfl⟩⟩
  obtain rfl | rfl := List.perm_pair.mp (perm_of_interleave horder)
  · obtain ⟨hvalues, r, hmem, hbytes⟩ := race_process_first hp hpad hrun
    exact ⟨hvalues, r, hmem, .inr hbytes⟩
  · obtain ⟨hvalues, r, hmem, hbytes⟩ := race_frame_first hp hpad hrun
    exact ⟨hvalues, r, hmem, .inl hbytes⟩

end Sys2Proof.Proofs
end
